-- ==== Sys2Proof/Word.lean ====
section
/-! DEFINITION. The widths the spec works in: "A byte is 8 bits; a word is 32 bits" (00_scope.md R9). -/

namespace Sys2Proof

/-- A byte of a block memory (00_scope.md R9, R10). -/
abbrev Byte := BitVec 8

/-- A word of the host port, and a command word (00_scope.md R9; 20_memory.md R60; 30_encoding.md R90). -/
abbrev Word := BitVec 32

end Sys2Proof
end

