-- ==== Sys2Proof/Config.lean ====
section
/-! DEFINITION. What is fixed when the block is built (00_scope.md R6, R7, R8) and the values the spec leaves
open (20_memory.md R74, R80). -/

namespace Sys2Proof

/-- The four byte memories of 10_state.md R45, each indexed from 0. -/
inductive BlockMem where
  | path
  | payload
  | frame
  | sample
deriving DecidableEq, Repr

/-! Fixed constants (00_scope.md R6). -/

/-- `BIT_RATE`, 1200 baud. -/
def bitRate : Nat := 1200
/-- `MARK_HZ`. -/
def markHz : Nat := 1200
/-- `SPACE_HZ`. -/
def spaceHz : Nat := 2200
/-- `STUFF_LIMIT`, consecutive one-bits. -/
def stuffLimit : Nat := 5
/-- The HDLC flag byte `FLAG`. -/
def flagByte : Byte := 0x7E
/-- The UI control byte `CONTROL`. -/
def controlByte : Byte := 0x03
/-- The "no layer 3" byte `PID`. -/
def pidByte : Byte := 0xF0
/-- `DST_SSID_BASE`, before the address shift. -/
def dstSsidBase : Byte := 0x70
/-- `SRC_SSID_BASE`, before the address shift. -/
def srcSsidBase : Byte := 0x30
/-- `PATH_CAP`, "fixed 56" (00_scope.md R8). -/
def pathCap : Nat := 56
/-- The bytes the block decodes from `BLOCK_BASE` on (20_memory.md R60). -/
def apertureBytes : Nat := 0x20000

/-- The parameters of a build (00_scope.md R7, R8). A value of this type may lie outside the legal ranges;
`Config.legal` (WellFormed.lean) is the check, and `Machine.step` refuses a build that fails it. -/
structure Config where
  /-- `BLOCK_BASE`, the platform address of offset 0; OPEN (00_scope.md R8, 60_exceptions.md R241). -/
  blockBase  : Nat
  /-- `SAMPLE_RATE` in Hz (00_scope.md R7). -/
  sampleRate : Nat
  /-- `PAYLOAD_CAP` (00_scope.md R8). -/
  payloadCap : Nat
  /-- `FRAME_CAP` (00_scope.md R8). -/
  frameCap   : Nat
  /-- `SAMPLE_CAP` (00_scope.md R8). -/
  sampleCap  : Nat
deriving DecidableEq, Repr

/-- The default build (00_scope.md R7, R8). DESIGN CHOICE (assumption 2, unsafe): `BLOCK_BASE` has no default
in the spec; 0 here. -/
def Config.default : Config :=
  { blockBase := 0, sampleRate := 12000, payloadCap := 256, frameCap := 1024, sampleCap := 65536 }

/-- `SPB`, the samples of one bit-cell (00_scope.md R7). -/
def Config.spb (c : Config) : Nat := c.sampleRate / bitRate

/-- The capacity in bytes of each block memory (00_scope.md R8, 10_state.md R45). -/
def Config.cap (c : Config) : BlockMem → Nat
  | .path => pathCap
  | .payload => c.payloadCap
  | .frame => c.frameCap
  | .sample => c.sampleCap

/-- FREE VALUE (assumption 3, safe): the byte that index `i` of memory `m` holds from the `epoch`-th hard reset
until something writes it: "an unknown value fixed per byte (a draw at reset), never as zero" (20_memory.md R80). -/
opaque Config.unspecifiedByte (epoch : Nat) (m : BlockMem) (i : Nat) : Byte

/-- FREE VALUE (assumption 4, safe): what the `n`-th read of an unreadable offset returns while a command is in
flight, "any value, chosen afresh at each read" (20_memory.md R74). -/
opaque Config.busyReadWord (n : Nat) : Word

end Sys2Proof
end

