-- ==== Sys2Proof/Syntax.lean ====
section
/-! DEFINITION. What can be said to the block: the commands of the opcode table (30_encoding.md R91), the
registers by name (10_state.md R22), what reaches the block from outside (20_memory.md R60, 70_reset_and_hazards.md
R260), and the statements of host programs (30_encoding.md R95, R96). -/

namespace Sys2Proof

/-- The commands: one constructor per row of spec/opcode_table.json. A command has no operand field
(30_encoding.md R90); all its operands are in registers and memories (R94). -/
inductive Instr where
  | crc
  | build
  | modulate
  | buildmod
  | sreset
deriving DecidableEq, Repr

/-- The registers of 10_state.md R22, in the order of their offsets. -/
inductive Reg where
  | id
  | ctrl
  | cmd
  | status
  | preFlags
  | postFlags
  | dstCall0
  | dstCall1
  | dstSsid
  | srcCall0
  | srcCall1
  | srcSsid
  | pathLen
  | payloadLen
  | frameLen
  | startStuff
  | endStuff
  | sampleMax
  | sampleCount
  | crcOff
  | crcLen
  | crcResult
  | modPhase
  | modLevel
deriving DecidableEq, Repr

/-- What the outside does to the block, one atomic event each. Transfers carry PLATFORM addresses: the block
decodes the aperture that begins at `BLOCK_BASE` (20_memory.md R60, 60_exceptions.md R241). -/
inductive Input where
  /-- `MemWrite(addr - BLOCK_BASE, 4, v)`. -/
  | write (addr : Nat) (v : Word)
  /-- `MemRead(addr - BLOCK_BASE, 4)`. -/
  | read (addr : Nat)
  /-- The host loop `WAIT`: `RD STATUS` until it returns `BUSY` = 0 (30_encoding.md R96). -/
  | wait
  /-- An assertion of the reset input `rst` (70_reset_and_hazards.md R260). -/
  | rst
deriving DecidableEq, Repr

/-- The `<target>` of a host statement (30_encoding.md R95). -/
inductive HostTarget where
  | reg (r : Reg)
  | window (m : BlockMem) (w : Nat)
  | offset (off : Nat)
deriving DecidableEq, Repr

/-- The callsign that `WRCALL` names (30_encoding.md R96). -/
inductive CallSide where
  | dst
  | src
deriving DecidableEq, Repr

/-- Host statements and pseudo-instructions (30_encoding.md R95, R96). The name an `RD` binds is the host's own
and has no place in the block. -/
inductive HostStmt where
  | wr (t : HostTarget) (v : Word)
  | rd (t : HostTarget)
  | cmd (i : Instr)
  | wait
  | wrcall (side : CallSide) (chars : List Byte)
  | wrbytes (m : BlockMem) (k : Nat) (bytes : List Byte)
  | rdbytes (m : BlockMem) (k n : Nat)
deriving DecidableEq, Repr

end Sys2Proof
end

