-- ==== Sys2Proof/WellFormed.lean ====
section
/-! DEFINITION. The checks on what is said to the block. A command word has no operand, so no constructor of
`Instr` can be ill-formed; a build, a transfer and a host statement can. -/

namespace Sys2Proof

/-- "There is no other field" (30_encoding.md R90): every command is well-formed. -/
def Instr.wellFormed : Instr → Bool
  | .crc => true
  | .build => true
  | .modulate => true
  | .buildmod => true
  | .sreset => true

/-- The legal builds: `SAMPLE_RATE` a multiple of 1200 from 1200 to 64800 (00_scope.md R7) and each capacity in
its range (R8). `BLOCK_BASE` is open. -/
def Config.legal (c : Config) : Bool :=
  c.sampleRate % bitRate == 0 && decide (1200 ≤ c.sampleRate) && decide (c.sampleRate ≤ 64800) &&
  decide (1 ≤ c.payloadCap) && decide (c.payloadCap ≤ 1024) &&
  decide (1 ≤ c.frameCap) && decide (c.frameCap ≤ 4096) &&
  decide (1 ≤ c.sampleCap) && decide (c.sampleCap ≤ 65536)

/-- A platform address inside the block's aperture (20_memory.md R60). -/
def Config.decodes (c : Config) (addr : Nat) : Bool :=
  decide (c.blockBase ≤ addr) && decide (addr < c.blockBase + apertureBytes)

/-- A transfer the block decodes. -/
def Input.wellFormed (c : Config) : Input → Bool
  | .write addr _ => c.decodes addr
  | .read addr => c.decodes addr
  | .wait => true
  | .rst => true

/-- The bytes of each window of the address map, whatever the capacities (20_memory.md R61). -/
def BlockMem.windowBytes : BlockMem → Nat
  | .path => 0x38
  | .payload => 0x400
  | .frame => 0x1000
  | .sample => 0x10000

/-- A target inside the aperture; a window word inside its window (30_encoding.md R95, 20_memory.md R61). -/
def HostTarget.wellFormed : HostTarget → Bool
  | .reg _ => true
  | .window m w => decide (4 * w < m.windowBytes)
  | .offset off => decide (off < apertureBytes)

/-- A statement of 30_encoding.md R95, R96: at most six callsign characters, and `WRBYTES` from an index that is
a multiple of 4; both byte lists inside the window. -/
def HostStmt.wellFormed : HostStmt → Bool
  | .wr t _ => t.wellFormed
  | .rd t => t.wellFormed
  | .cmd _ => true
  | .wait => true
  | .wrcall _ chars => decide (chars.length ≤ 6)
  | .wrbytes m k bytes => k % 4 == 0 && decide (k + bytes.length ≤ m.windowBytes)
  | .rdbytes m k n => decide (k + n ≤ m.windowBytes)

end Sys2Proof
end

