-- ==== Sys2Proof/Decode.lean ====
section
/-! DEFINITION. Command words (30_encoding.md R90 to R93): "A command word is selected by its whole 32-bit value". -/

namespace Sys2Proof

/-- Why a word names no command (30_encoding.md R92). Such a word is still issued and completes with `BAD_CMD`. -/
inductive DecodeError where
  /-- The field `MBZ` (bits [31:4]) is not zero. -/
  | nonzeroMbz (mbz : BitVec 28)
  /-- `OP` is none of the codes of R91. -/
  | reservedOp (op : BitVec 4)
deriving DecidableEq, Repr

/-- Field `OP`, bits [3:0] (30_encoding.md R90). -/
def opField (w : Word) : BitVec 4 := w.extractLsb' 0 4

/-- Field `MBZ`, bits [31:4] (30_encoding.md R90). -/
def mbzField (w : Word) : BitVec 28 := w.extractLsb' 4 28

/-- The command codes of 30_encoding.md R91. -/
def decodeOp (op : BitVec 4) : Option Instr :=
  match op.toNat with
  | 0x1 => some .crc
  | 0x2 => some .build
  | 0x3 => some .modulate
  | 0x4 => some .buildmod
  | 0xF => some .sreset
  | _ => none

/-- The decoder: every word is a command of R91 or a reserved encoding of R92. -/
def decode (w : Word) : Except DecodeError Instr :=
  if mbzField w = 0 then
    match decodeOp (opField w) with
    | some i => .ok i
    | none => .error (.reservedOp (opField w))
  else .error (.nonzeroMbz (mbzField w))

/-- The word of each command (30_encoding.md R91). -/
def encode : Instr → Word
  | .crc => 0x00000001
  | .build => 0x00000002
  | .modulate => 0x00000003
  | .buildmod => 0x00000004
  | .sreset => 0x0000000F

/-- The command read from table bits: "Every command word is exactly 32 bits" (30_encoding.md R90), the bits above
`nbits` are zero, and a number with a bit above bit 31 is no command word. -/
def decodeTableWord (nbits w : Nat) : Option Instr :=
  let v := w % 2 ^ nbits
  if v < 2 ^ 32 then
    match decode (BitVec.ofNat 32 v) with
    | .ok i => some i
    | .error _ => none
  else none

end Sys2Proof
end

