-- ==== Sys2Proof/Machine/State.lean ====
section
/-! DEFINITION. The state of the block (10_state.md), as plain data, and the state after reset. -/

namespace Sys2Proof.Machine

/-- `STATUS.ERR_CODE`: the codes that are ever produced (60_exceptions.md R232). Codes 5 to 15 are "never
produced", so they have no constructor. -/
inductive ErrCode where
  /-- 0 `NONE`. -/
  | noError
  /-- 1 `BAD_CMD`. -/
  | badCmd
  /-- 2 `BAD_LEN`. -/
  | badLen
  /-- 3 `FRAME_OVERFLOW`. -/
  | frameOverflow
  /-- 4 `SAMPLE_OVERFLOW`. -/
  | sampleOverflow
deriving DecidableEq, Repr

/-- The registers of 10_state.md R22: the stored fields of each, at the widths of R24 to R44. `ID` is a constant
(R23), `CMD` stores nothing (R25) and `STATUS.BUSY` is `State.busy` (R26, R46); the bits named here are all the bits
that can hold a value, every other bit being RAZ/WI. -/
structure Regs where
  /-- `CTRL.IRQ_EN` (R24). -/
  irqEn        : Bool
  /-- `CTRL.KEEP_MOD_STATE` (R24). -/
  keepModState : Bool
  /-- `STATUS.DONE` (R26). -/
  done         : Bool
  /-- `STATUS.ERR_CODE` (R26, R232). -/
  errCode      : ErrCode
  /-- `STATUS.WR_BUSY` (R26). -/
  wrBusy       : Bool
  /-- `STATUS.BAD_ACCESS` (R26). -/
  badAccess    : Bool
  /-- `PRE_FLAGS.COUNT` (R27). -/
  preFlags     : BitVec 8
  /-- `POST_FLAGS.COUNT` (R28). -/
  postFlags    : BitVec 8
  /-- `DST_CALL0` (R29). -/
  dstCall0     : BitVec 32
  /-- `DST_CALL1[15:0]` (R29). -/
  dstCall1     : BitVec 16
  /-- `DST_SSID.SSID` (R30). -/
  dstSsid      : BitVec 8
  /-- `SRC_CALL0` (R31). -/
  srcCall0     : BitVec 32
  /-- `SRC_CALL1[15:0]` (R31). -/
  srcCall1     : BitVec 16
  /-- `SRC_SSID.SSID` (R32). -/
  srcSsid      : BitVec 8
  /-- `PATH_LEN.LEN` (R33). -/
  pathLen      : BitVec 8
  /-- `PAYLOAD_LEN.LEN` (R34). -/
  payloadLen   : BitVec 16
  /-- `FRAME_LEN.LEN` (R35). -/
  frameLen     : BitVec 16
  /-- `START_STUFF.IDX` (R36). -/
  startStuff   : BitVec 16
  /-- `END_STUFF.IDX` (R37). -/
  endStuff     : BitVec 16
  /-- `SAMPLE_MAX.MAX` (R38). -/
  sampleMax    : BitVec 17
  /-- `SAMPLE_COUNT.COUNT` (R39). -/
  sampleCount  : BitVec 17
  /-- `CRC_OFF.OFF` (R40). -/
  crcOff       : BitVec 16
  /-- `CRC_LEN.LEN` (R41). -/
  crcLen       : BitVec 16
  /-- `CRC_RESULT.CRC` (R42). -/
  crcResult    : BitVec 16
  /-- `MOD_PHASE.P` (R43). -/
  modPhase     : BitVec 16
  /-- `MOD_LEVEL.LVL`; true is 1, mark (R44). -/
  modLevel     : Bool
deriving DecidableEq, Repr

/-- "every register takes the value in the 'reset' column of rule R22 (ID 0x53410100; MOD_LEVEL 1; every other
register 0)" (10_state.md R49). -/
def Regs.reset : Regs :=
  { irqEn := false, keepModState := false, done := false, errCode := .noError, wrBusy := false, badAccess := false,
    preFlags := 0, postFlags := 0, dstCall0 := 0, dstCall1 := 0, dstSsid := 0, srcCall0 := 0, srcCall1 := 0,
    srcSsid := 0, pathLen := 0, payloadLen := 0, frameLen := 0, startStuff := 0, endStuff := 0, sampleMax := 0,
    sampleCount := 0, crcOff := 0, crcLen := 0, crcResult := 0, modPhase := 0, modLevel := true }

/-- The command in flight (10_state.md R46 (a)): its word, and, as the model's own field, how many more host
transfers come before its completion step (70_reset_and_hazards.md R269; assumption 5). -/
structure InFlight where
  word : Word
  hold : Nat
deriving DecidableEq, Repr

/-- The bytes of one block memory that something has written since the last hard reset: (index, byte) pairs with
strictly rising indices. An index that is not listed holds no written value and reads as
`Config.unspecifiedByte` (20_memory.md R80; assumption 3). -/
abbrev Memory := List Host.Cell

/-- The block, its build and its host port. -/
structure State where
  /-- The build's parameters (00_scope.md R7, R8); no step changes them. -/
  cfg        : Config
  /-- The registers (10_state.md R22). -/
  regs       : Regs
  /-- The command in flight, if any (10_state.md R46). -/
  inFlight   : Option InFlight
  /-- `PATH_MEM` (10_state.md R45). -/
  pathMem    : Memory
  /-- `PAYLOAD_MEM` (10_state.md R45). -/
  payloadMem : Memory
  /-- `FRAME_MEM` (10_state.md R45). -/
  frameMem   : Memory
  /-- `SAMPLE_MEM` (10_state.md R45). -/
  sampleMem  : Memory
  /-- MODEL'S OWN: what the outside has still to do, in port order (20_memory.md R73). -/
  inputs     : List Input
  /-- MODEL'S OWN: the words the port has returned to reads, newest first. -/
  reads      : List Word
  /-- MODEL'S OWN: how many host transfers each command still to be issued waits before its completion step
  (70_reset_and_hazards.md R269; assumption 5). -/
  delays     : List Nat
  /-- MODEL'S OWN: how many free reads have been drawn (20_memory.md R74; assumption 4). -/
  draws      : Nat
  /-- MODEL'S OWN: how many hard resets there have been since power-up (20_memory.md R80; assumption 3). -/
  epoch      : Nat
deriving DecidableEq, Repr

/-- The block never stops with a fault: "there is no exception/panic path", "The block therefore has no trap"
(60_exceptions.md, R236), and no entry of 93_implementation_defined.md "uses `stuck`". So this type is empty. -/
inductive Fault where
deriving DecidableEq, Repr

/-- Why the model answers no next state. -/
inductive Refusal where
  /-- Raised by an arm of `exec` that has no meaning yet; no arm raises it in this model. Safe. -/
  | notModelled (mnemonic : String)
  /-- Raised by `step` in a state whose build is outside the ranges of 00_scope.md R7, R8: "a model refuses any
  other value". Safe. -/
  | illegalBuild
  /-- Raised by `step` on a transfer outside the aperture: "Offsets 0x20000 and above are not decoded by the
  block; what the platform does with them is outside this spec" (20_memory.md R60; `refuse` in
  93_implementation_defined.md section 4). Safe. -/
  | outsideAperture (addr : Nat)
deriving DecidableEq, Repr

/-- The state after power-up, in the default build: 70_reset_and_hazards.md R261. No byte of a memory has been
written, nothing is in flight, and the outside has asked for nothing yet. -/
def State.reset : State :=
  { cfg := Config.default, regs := Regs.reset, inFlight := none,
    pathMem := [], payloadMem := [], frameMem := [], sampleMem := [],
    inputs := [], reads := [], delays := [], draws := 0, epoch := 0 }

end Sys2Proof.Machine
end

