-- ==== Sys2Proof/Machine/Ops.lean ====
section
/-! DEFINITION. The shared operations: bytes and words, the block memories, and the beginning and the end of a
command. There is no trap to take or to return from (60_exceptions.md R236, R237): a command that fails ends
through the same operation as one that succeeds, `State.complete`. -/

namespace Sys2Proof

/-! ### Bytes and words (20_memory.md R64, R69) -/

/-- Lane `j` of a word, `v[8j+7:8j]` (20_memory.md R64). -/
def lane {n : Nat} (v : BitVec n) (j : Nat) : Byte := v.extractLsb' (8 * j) 8

/-- The word whose lanes, from lane 0 up, are `bs`; missing lanes are 0 (20_memory.md R64). -/
def packLanes : List Byte → Word
  | [] => 0
  | b :: bs => (packLanes bs <<< 8) ||| b.setWidth 32

/-- The first `n` lanes of a word, lane 0 first. -/
def lanes (v : Word) (n : Nat) : List Byte := (List.range n).map (lane v)

namespace Machine

/-! ### One memory -/

/-- The written value at an index, if the index has been written. -/
def Memory.get? : Memory → Nat → Option Byte
  | [], _ => none
  | (k, v) :: m, i => if k = i then some v else Memory.get? m i

/-- Consecutive bytes as cells from index `i`. -/
def Memory.cells (i : Nat) : List Byte → Memory
  | [] => []
  | b :: bs => (i, b) :: Memory.cells (i + 1) bs

/-- Stores `bs` at the indices from `i` on, in place of whatever was listed there. -/
def Memory.write (m : Memory) (i : Nat) (bs : List Byte) : Memory :=
  m.filter (fun c => decide (c.1 < i)) ++ Memory.cells i bs ++ m.filter (fun c => decide (i + bs.length ≤ c.1))

/-- The canonical form: indices strictly rising, all below the capacity. What an index that is not listed reads as
is a free value and no stored byte, so no entry equals it, and writing a byte always lists it. -/
abbrev Memory.wf (cap : Nat) (m : Memory) : Prop :=
  m.Pairwise (fun x y => x.1 < y.1) ∧ ∀ c ∈ m, c.1 < cap

/-! ### The memories of the block -/

/-- The block memory of a name (10_state.md R45). -/
def State.mem (s : State) : BlockMem → Memory
  | .path => s.pathMem
  | .payload => s.payloadMem
  | .frame => s.frameMem
  | .sample => s.sampleMem

/-- Replaces one block memory. -/
def State.setMem (s : State) (m : BlockMem) (x : Memory) : State :=
  match m with
  | .path => { s with pathMem := x }
  | .payload => { s with payloadMem := x }
  | .frame => { s with frameMem := x }
  | .sample => { s with sampleMem := x }

/-- The byte at an index of a block memory: the written one, else the free value of 20_memory.md R80. -/
def State.byte (s : State) (m : BlockMem) (i : Nat) : Byte :=
  match Memory.get? (s.mem m) i with
  | some b => b
  | none => Config.unspecifiedByte s.epoch m i

/-- `M[i .. i+n)`, "the sequence of bytes at indices a to b−1 in increasing index order" (00_scope.md R10). -/
def State.readBytes (s : State) (m : BlockMem) : (i n : Nat) → List Byte
  | _, 0 => []
  | i, n + 1 => s.byte m i :: s.readBytes m (i + 1) n

/-- Stores bytes at consecutive indices of a block memory. -/
def State.writeBytes (s : State) (m : BlockMem) (i : Nat) (bs : List Byte) : State :=
  s.setMem m (Memory.write (s.mem m) i bs)

/-! ### The life of a command (60_exceptions.md R230, R231) -/

/-- `STATUS.BUSY`: a command is in flight (10_state.md R26, R46). -/
def State.busy (s : State) : Bool := s.inFlight.isSome

/-- Issue: `BUSY <- 1`, `DONE <- 0`, `ERR_CODE <- 0`, and the word is the command in flight; `WR_BUSY` and
`BAD_ACCESS` stay (60_exceptions.md R230). -/
def State.launch (w : Word) (hold : Nat) (s : State) : State :=
  { s with
    inFlight := some { word := w, hold := hold }
    regs := { s.regs with done := false, errCode := .noError } }

/-- The end of a command, `finish()` with code 0 and `fail(c)` with code `c`: `BUSY <- 0`, `DONE <- 1`,
`ERR_CODE <- e`, and "The command in flight is then none" (60_exceptions.md R231). -/
def State.complete (e : ErrCode) (s : State) : State :=
  { s with
    inFlight := none
    regs := { s.regs with done := true, errCode := e } }

/-- The completion step of a command whose pseudocode left the given state and code (60_exceptions.md R231). -/
def finish (r : State × ErrCode) : State := r.1.complete r.2

/-- Every register of 10_state.md R22 takes its reset value and no command is in flight (10_state.md R49;
43_control.md R211). -/
def State.resetRegs (s : State) : State :=
  { s with regs := Regs.reset, inFlight := none }

/-- The reset input (70_reset_and_hazards.md R260, R261): the registers as after SRESET, a command in flight
abandoned, and every memory byte drawn afresh (20_memory.md R80). -/
def State.hardReset (s : State) : State :=
  { s.resetRegs with
    pathMem := [], payloadMem := [], frameMem := [], sampleMem := [], epoch := s.epoch + 1 }

end Machine

end Sys2Proof
end

