-- ==== Sys2Proof/Machine/Flags.lean ====
section
/-! DEFINITION. The control and status registers: `STATUS` (10_state.md R26), its W1C writes and sticky bits
(60_exceptions.md R233), `CTRL` (R24) and the interrupt output (R235). -/

namespace Sys2Proof.Machine

/-- The number of an error code (60_exceptions.md R232). -/
def ErrCode.code : ErrCode → BitVec 4
  | .noError => 0
  | .badCmd => 1
  | .badLen => 2
  | .frameOverflow => 3
  | .sampleOverflow => 4

/-- A one-bit field at bit `k` of a register word. -/
def bitAt (k : Nat) (b : Bool) : Word := (BitVec.ofBool b).setWidth 32 <<< k

/-- `STATUS` as the host reads it (10_state.md R26). -/
def State.statusWord (s : State) : Word :=
  bitAt 0 s.busy ||| bitAt 1 s.regs.done ||| (s.regs.errCode.code.setWidth 32 <<< 4) |||
  bitAt 8 s.regs.wrBusy ||| bitAt 9 s.regs.badAccess

/-- `CTRL` as the host reads it (10_state.md R24). -/
def State.ctrlWord (s : State) : Word :=
  bitAt 0 s.regs.irqEn ||| bitAt 1 s.regs.keepModState

/-- The interrupt output: `irq` = `CTRL.IRQ_EN` & `STATUS.DONE` (60_exceptions.md R235). -/
def State.irq (s : State) : Bool := s.regs.irqEn && s.regs.done

/-- A write of `v` to a W1C bit `k` that holds `old` (10_state.md R22). -/
def w1c (v : Word) (k : Nat) (old : Bool) : Bool := old && !v.getLsbD k

/-- A host write to `STATUS`: W1C on `DONE`, `WR_BUSY` and `BAD_ACCESS`; `BUSY` and `ERR_CODE` ignore it
(10_state.md R26). -/
def State.writeStatus (v : Word) (s : State) : State :=
  { s with regs := { s.regs with
      done := w1c v 1 s.regs.done
      wrBusy := w1c v 8 s.regs.wrBusy
      badAccess := w1c v 9 s.regs.badAccess } }

/-- A host write to `CTRL` (10_state.md R24). -/
def State.writeCtrl (v : Word) (s : State) : State :=
  { s with regs := { s.regs with irqEn := v.getLsbD 0, keepModState := v.getLsbD 1 } }

/-- `STATUS.WR_BUSY <- 1` (20_memory.md R75). -/
def State.setWrBusy (s : State) : State := { s with regs := { s.regs with wrBusy := true } }

/-- `STATUS.BAD_ACCESS <- 1` (20_memory.md R63). -/
def State.setBadAccess (s : State) : State := { s with regs := { s.regs with badAccess := true } }

end Sys2Proof.Machine
end

