-- ==== Sys2Proof/Machine/Operands.lean ====
section
/-! DEFINITION. How each operand of a command is formed from register bits (30_encoding.md R94). -/

namespace Sys2Proof.Machine

/-- P, `zext(PRE_FLAGS[7:0])`. -/
def State.preCount (s : State) : Nat := s.regs.preFlags.toNat
/-- Q, `zext(POST_FLAGS[7:0])`. -/
def State.postCount (s : State) : Nat := s.regs.postFlags.toNat
/-- L, `zext(PATH_LEN[7:0])` bytes. -/
def State.pathBytes (s : State) : Nat := s.regs.pathLen.toNat
/-- M, `zext(PAYLOAD_LEN[15:0])` bytes. -/
def State.payloadBytes (s : State) : Nat := s.regs.payloadLen.toNat
/-- N, `zext(FRAME_LEN[15:0])` bytes. -/
def State.frameCount (s : State) : Nat := s.regs.frameLen.toNat
/-- The sample limit, `zext(SAMPLE_MAX[16:0])`. -/
def State.sampleLimit (s : State) : Nat := s.regs.sampleMax.toNat
/-- `o`, `zext(CRC_OFF[15:0])`. -/
def State.crcStart (s : State) : Nat := s.regs.crcOff.toNat
/-- `n`, `zext(CRC_LEN[15:0])`. -/
def State.crcCount (s : State) : Nat := s.regs.crcLen.toNat

/-- `sext_16(v)`, "v − 65536 when v[15] = 1, else v" (00_scope.md R9). -/
def sext16 (v : BitVec 16) : Int := v.toInt

/-- s, `sext_16(START_STUFF[15:0])`. -/
def State.stuffStart (s : State) : Int := sext16 s.regs.startStuff
/-- e, `sext_16(END_STUFF[15:0])`. -/
def State.stuffEnd (s : State) : Int := sext16 s.regs.endStuff

/-- The six bytes of a callsign field: byte j is `CALL0[8j+7:8j]` for j < 4 and `CALL1[8(j−4)+7:8(j−4)]` for
j = 4, 5 (10_state.md R29, R31). -/
def callBytes (c0 : BitVec 32) (c1 : BitVec 16) : List Byte :=
  [lane c0 0, lane c0 1, lane c0 2, lane c0 3, lane c1 0, lane c1 1]

/-- `DST_CALL[0..5]` (10_state.md R29). -/
def State.dstCall (s : State) : List Byte := callBytes s.regs.dstCall0 s.regs.dstCall1
/-- `SRC_CALL[0..5]` (10_state.md R31). -/
def State.srcCall (s : State) : List Byte := callBytes s.regs.srcCall0 s.regs.srcCall1

/-- An SSID register's operand, bits [3:0]; "bits [7:4] are stored but ignored". -/
def ssidNibble (v : BitVec 8) : Byte := v &&& 0x0F

end Sys2Proof.Machine
end

