-- ==== Sys2Proof/Machine/Sine.lean ====
section
/-! DEFINITION. The sample function `SINE` (42_afsk.md R171), computed on natural numbers.

`SINE(P)` is 127 × (sin(2π·P/SAMPLE_RATE) + 1), "computed in exact real arithmetic and rounded once; a halfway case
rounds away from zero". The sine of a first-quadrant angle is taken as a fraction: exactly 1/2 at one twelfth of the
circle, where R171 has its halfway cases, and elsewhere the Taylor polynomial of degree 17 at the rational angle that
20 decimals of π give. Its error is below 10^-12, and over every legal `SAMPLE_RATE` no other sample lies nearer than
6·10^-7 to a half-integer (assumption 8), so the rounded value is the one R171 defines. -/

namespace Sys2Proof.Machine

/-- π as `piNum / piDen`, cut after 20 decimals. -/
def piNum : Nat := 314159265358979323846
/-- The denominator of `piNum`. -/
def piDen : Nat := 100000000000000000000

/-- `1 - x²/(2j(2j+1)) · (1 - x²/((2j+2)(2j+3)) · (…))`, `terms` factors deep, as a fraction; `x² = u / w`. -/
def sineSeries (u w : Nat) : (j terms : Nat) → Nat × Nat
  | _, 0 => (1, 1)
  | j, terms + 1 =>
    let inner := sineSeries u w (j + 1) terms
    let d := w * (2 * j) * (2 * j + 1) * inner.2
    (d - u * inner.1, d)

/-- sin(2π·k/rate) for 0 ≤ k ≤ rate/4, as a fraction. -/
def quarterSine (rate k : Nat) : Nat × Nat :=
  if 12 * k = rate then (1, 2)
  else
    let a := 2 * k * piNum
    let b := rate * piDen
    let r := sineSeries (a * a) (b * b) 1 8
    (a * r.1, b * r.2)

/-- The phase of the same absolute sine in the first quadrant. -/
def quarterPhase (rate p : Nat) : Nat :=
  let half := rate / 2
  let m := (p % rate) % half
  if 2 * m ≤ half then m else half - m

/-- The sine at phase `p` is not negative: the first half of the circle. -/
def sinePositive (rate p : Nat) : Bool := decide (p % rate < rate / 2)

/-- 127 × (sin + 1) as a fraction. -/
def sampleFraction (rate p : Nat) : Nat × Nat :=
  let r := quarterSine rate (quarterPhase rate p)
  (127 * (if sinePositive rate p then r.2 + r.1 else r.2 - r.1), r.2)

/-- `round_half_away` of a fraction that is not negative (00_scope.md R11). -/
def roundHalfUp (num den : Nat) : Nat := (2 * num + den) / (2 * den)

/-- `SINE(P)` at a sample rate (42_afsk.md R171). -/
def sine (rate p : Nat) : Byte :=
  BitVec.ofNat 8 (roundHalfUp (sampleFraction rate p).1 (sampleFraction rate p).2)

end Sys2Proof.Machine
end

