-- ==== Sys2Proof/Machine/Afsk.lean ====
section
/-! DEFINITION. The AFSK modulator, NRZI encoder and bit-stuffer, and the `MODULATE` command (42_afsk.md). -/

namespace Sys2Proof.Machine

/-- The constants of one run of the modulator. -/
structure ModEnv where
  /-- `SAMPLE_RATE`. -/
  rate : Nat
  /-- `SPB`. -/
  spb  : Nat
  /-- The sample limit MAX. -/
  max  : Nat
deriving DecidableEq, Repr

/-- The modulator inside its completion step (10_state.md R46 (b), (c)): phase, level, the one-counter, and the
samples this command has written, newest first, with their number `n`. -/
structure Mod where
  phase : Nat
  level : Bool
  ones  : Nat
  n     : Nat
  out   : List Byte
deriving DecidableEq, Repr

/-- The increment of a sample: "`MARK_HZ` (1200) when `MOD_LEVEL.LVL` = 1 and `SPACE_HZ` (2200) when it is 0"
(42_afsk.md R172). -/
def toneHz (level : Bool) : Nat := if level then markHz else spaceHz

/-- One sample: emit `SINE(P)`, then advance the phase (42_afsk.md R173, R170). -/
def Mod.sampleStep (e : ModEnv) (m : Mod) : Mod :=
  { m with
    out := sine e.rate m.phase :: m.out
    n := m.n + 1
    phase := (m.phase + toneHz m.level) % e.rate }

/-- `repeat k times` one sample (42_afsk.md R173). -/
def Mod.emit (e : ModEnv) : Nat → Mod → Mod
  | 0, m => m
  | k + 1, m => Mod.emit e k (m.sampleStep e)

/-- `CELL()` (42_afsk.md R173): `.error` is the abort of R180, with the modulator as it stands at the refused cell;
"a cell is written whole or not at all". -/
def Mod.cell (e : ModEnv) (m : Mod) : Except Mod Mod :=
  if m.n + e.spb > e.max then .error m else .ok (Mod.emit e e.spb m)

/-- `MOD_LEVEL.LVL <- MOD_LEVEL.LVL ^ 1`. -/
def Mod.toggle (m : Mod) : Mod := { m with level := !m.level }

/-- The NRZI step (42_afsk.md R175). -/
def Mod.nrzi (m : Mod) (b : Bool) : Mod :=
  if b then { m with ones := m.ones + 1 } else { m.toggle with ones := 0 }

/-- The stuffing step (42_afsk.md R177), or outside the region the forced counter (R178). -/
def Mod.stuff (e : ModEnv) (inreg : Bool) (m : Mod) : Except Mod Mod :=
  if inreg then
    if m.ones = stuffLimit then
      match m.toggle.cell e with
      | .error m' => .error m'
      | .ok m' => .ok { m' with ones := 0 }
    else .ok m
  else .ok { m with ones := 0 }

/-- One input bit: NRZI step, bit-cell, stuffing step (42_afsk.md R182). -/
def Mod.bit (e : ModEnv) (inreg : Bool) (m : Mod) (b : Bool) : Except Mod Mod :=
  match (m.nrzi b).cell e with
  | .error m' => .error m'
  | .ok m' => m'.stuff e inreg

/-- The bits of one byte in order. -/
def Mod.bits (e : ModEnv) (inreg : Bool) : List Bool → Mod → Except Mod Mod
  | [], m => .ok m
  | b :: bs, m =>
    match m.bit e inreg b with
    | .error m' => .error m'
    | .ok m' => Mod.bits e inreg bs m'

/-- The bits of a byte, "bit 0 first and bit 7 last" (42_afsk.md R174). -/
def bitsOf (b : Byte) : List Bool := (List.range 8).map b.getLsbD

/-- Byte index i is in the stuffing region "exactly when `s < i < e`", compared as signed integers
(42_afsk.md R176). -/
def inRegion (s e : Int) (i : Nat) : Bool := decide (s < (i : Int)) && decide ((i : Int) < e)

/-- The bytes from index `i` on (42_afsk.md R174, R182). -/
def Mod.bytes (e : ModEnv) (lo hi : Int) : (i : Nat) → List Byte → Mod → Except Mod Mod
  | _, [], m => .ok m
  | i, b :: bs, m =>
    match Mod.bits e (inRegion lo hi i) (bitsOf b) m with
    | .error m' => .error m'
    | .ok m' => Mod.bytes e lo hi (i + 1) bs m'

/-- The environment of a run. -/
def State.modEnv (s : State) : ModEnv :=
  { rate := s.cfg.sampleRate, spb := s.cfg.spb, max := s.sampleLimit }

/-- The initial state of 42_afsk.md R179: phase 0 and mark, or with `KEEP_MOD_STATE` the current registers; the
one-counter and the sample count start at 0 always. -/
def State.modStart (s : State) : Mod :=
  if s.regs.keepModState then
    { phase := s.regs.modPhase.toNat, level := s.regs.modLevel, ones := 0, n := 0, out := [] }
  else { phase := 0, level := true, ones := 0, n := 0, out := [] }

/-- What a run leaves behind, ended or aborted: the samples at `SAMPLE_MEM[0 .. n)`, the phase and the level
(42_afsk.md R180, R181), and `SAMPLE_COUNT`. -/
def State.modLeave (s : State) (m : Mod) (count : Nat) : State :=
  let t := s.writeBytes .sample 0 m.out.reverse
  { t with regs := { t.regs with
      sampleCount := BitVec.ofNat 17 count
      modPhase := BitVec.ofNat 16 m.phase
      modLevel := m.level } }

/-- `SAMPLE_COUNT <- 0`. -/
def State.clearSampleCount (s : State) : State :=
  { s with regs := { s.regs with sampleCount := 0 } }

/-- The pseudocode of `MODULATE` up to its end (42_afsk.md R182). -/
def modulateBody (s : State) : State × ErrCode :=
  if s.frameCount > s.cfg.frameCap then (s.clearSampleCount, .badLen)
  else if s.sampleLimit > s.cfg.sampleCap then (s.clearSampleCount, .badLen)
  else
    match Mod.bytes s.modEnv s.stuffStart s.stuffEnd 0 (s.readBytes .frame 0 s.frameCount) s.modStart with
    | .ok m => (s.modLeave m m.n, .noError)
    | .error m => (s.modLeave m 0, .sampleOverflow)

/-- `MODULATE` (42_afsk.md R182): its completion step. -/
def execModulate (s : State) : Host.Outcome State Fault Refusal := .next (finish (modulateBody s))

end Sys2Proof.Machine
end

