-- ==== Sys2Proof/Machine/Crc.lean ====
section
/-! DEFINITION. The CRC-16/CCITT function and the `CRC` command (40_crc.md). -/

namespace Sys2Proof.Machine

/-- One bit of the recurrence: `if c[0] == 1: c <- (c >> 1) ^ 0x8408 else: c <- c >> 1` (40_crc.md R120). -/
def crcBit (c : BitVec 16) : BitVec 16 :=
  if c.getLsbD 0 then (c >>> 1) ^^^ 0x8408 else c >>> 1

/-- One byte: it "enters the low 8 bits", then eight bits LSB first (40_crc.md R120). -/
def crcByte (c : BitVec 16) (b : Byte) : BitVec 16 :=
  crcBit (crcBit (crcBit (crcBit (crcBit (crcBit (crcBit (crcBit (c ^^^ b.setWidth 16))))))))

/-- The running register over a byte sequence (40_crc.md R120). -/
def crcRun : BitVec 16 → List Byte → BitVec 16
  | c, [] => c
  | c, b :: bs => crcRun (crcByte c b) bs

/-- `CRC16(d)`: initial register 0xFFFF, final one's complement (40_crc.md R120). -/
def crc16 (d : List Byte) : BitVec 16 := crcRun 0xFFFF d ^^^ 0xFFFF

/-- The FCS bytes of a CRC: "the low byte then the high byte" (40_crc.md R123). -/
def fcsBytes (f : BitVec 16) : List Byte := [lane f 0, lane f 1]

/-- The pseudocode of `CRC` up to its end (40_crc.md R124). -/
def crcBody (s : State) : State × ErrCode :=
  if s.crcStart + s.crcCount > s.cfg.frameCap then (s, .badLen)
  else
    ({ s with regs := { s.regs with crcResult := crc16 (s.readBytes .frame s.crcStart s.crcCount) } }, .noError)

/-- `CRC` (40_crc.md R124): its completion step. -/
def execCrc (s : State) : Host.Outcome State Fault Refusal := .next (finish (crcBody s))

end Sys2Proof.Machine
end

