-- ==== Sys2Proof/Machine/Framer.lean ====
section
/-! DEFINITION. The AX.25 UI-frame framer and the `BUILD` command (41_framer.md). -/

namespace Sys2Proof.Machine

/-- A callsign as emitted, before the shift: "the first 0x00 byte and every byte after it become spaces"
(41_framer.md R141). -/
def padCall : List Byte → List Byte
  | [] => []
  | b :: bs => if b = 0 then List.replicate (bs.length + 1) 0x20 else b :: padCall bs

/-- `(b << 1) & 0xFF` (41_framer.md R143). -/
def shiftAddr (b : Byte) : Byte := b <<< 1

/-- Sets "the LSB of the *last* address-region byte" (41_framer.md R143). -/
def markLast : List Byte → List Byte
  | [] => []
  | [b] => [b ||| 0x01]
  | b :: b' :: bs => b :: markLast (b' :: bs)

/-- The destination SSID byte before the shift (41_framer.md R142; 90_conflicts.md C1: it takes `DST_SSID`). -/
def State.dstSsidByte (s : State) : Byte := dstSsidBase ||| ssidNibble s.regs.dstSsid

/-- The source SSID byte before the shift (41_framer.md R142). -/
def State.srcSsidByte (s : State) : Byte := srcSsidBase ||| ssidNibble s.regs.srcSsid

/-- The address region before shift and mark: destination, source, path (41_framer.md R140, R144). -/
def State.addressPlain (s : State) : List Byte :=
  padCall s.dstCall ++ [s.dstSsidByte] ++ padCall s.srcCall ++ [s.srcSsidByte] ++
    s.readBytes .path 0 s.pathBytes

/-- The address region as stored (41_framer.md R143). -/
def State.addressRegion (s : State) : List Byte := markLast (s.addressPlain.map shiftAddr)

/-- The FCS coverage: address region, control, PID and payload, as stored (41_framer.md R145, R146). -/
def State.frameBody (s : State) : List Byte :=
  s.addressRegion ++ [controlByte, pidByte] ++ s.readBytes .payload 0 s.payloadBytes

/-- The whole frame, in the order of 41_framer.md R140. -/
def State.frameBytes (s : State) : List Byte :=
  List.replicate s.preCount flagByte ++ s.frameBody ++ fcsBytes (crc16 s.frameBody) ++
    List.replicate s.postCount flagByte

/-- T = P + 18 + L + M + Q (41_framer.md R140). -/
def State.frameTotal (s : State) : Nat :=
  s.preCount + 18 + s.pathBytes + s.payloadBytes + s.postCount

/-- `FRAME_LEN <- v`. -/
def State.setFrameLen (v : BitVec 16) (s : State) : State :=
  { s with regs := { s.regs with frameLen := v } }

/-- The pseudocode of `BUILD` up to its end (41_framer.md R149): the checks in their order, then the frame and the
three registers of R148. On an error only `FRAME_LEN` changes (R150). -/
def buildBody (s : State) : State × ErrCode :=
  if s.pathBytes > s.cfg.cap .path ∨ s.pathBytes % 7 ≠ 0 then (s.setFrameLen 0, .badLen)
  else if s.payloadBytes > s.cfg.payloadCap then (s.setFrameLen 0, .badLen)
  else if s.frameTotal > s.cfg.frameCap then (s.setFrameLen 0, .frameOverflow)
  else
    let t := s.writeBytes .frame 0 s.frameBytes
    ({ t with regs := { t.regs with
        frameLen := BitVec.ofNat 16 s.frameTotal
        startStuff := BitVec.ofNat 16 s.preCount - 1
        endStuff := BitVec.ofNat 16 (s.preCount + 18 + s.pathBytes + s.payloadBytes) } }, .noError)

/-- `BUILD` (41_framer.md R149): its completion step. -/
def execBuild (s : State) : Host.Outcome State Fault Refusal := .next (finish (buildBody s))

end Sys2Proof.Machine
end

