-- ==== Sys2Proof/Machine/Control.lean ====
section
/-! DEFINITION. The chained and control commands (43_control.md). -/

namespace Sys2Proof.Machine

/-- The pseudocode of `BUILDMOD` up to its end (43_control.md R210). -/
def buildmodBody (s : State) : State × ErrCode :=
  match buildBody s with
  | (t, .noError) => modulateBody t
  | (t, c) => (t.clearSampleCount, c)

/-- `BUILDMOD` (43_control.md R210): one completion step. -/
def execBuildmod (s : State) : Host.Outcome State Fault Refusal := .next (finish (buildmodBody s))

/-- `SRESET` (43_control.md R211), "Performed by the `CMD` write itself": every register to its reset value, the
memories kept, `DONE` not set. -/
def execSreset (s : State) : Host.Outcome State Fault Refusal := .next s.resetRegs

/-- The completion step of a reserved command word: `fail(BAD_CMD)` (43_control.md R212). -/
def completeReserved (s : State) : Host.Outcome State Fault Refusal := .next (finish (s, .badCmd))

end Sys2Proof.Machine
end

