-- ==== Sys2Proof/Machine/Dispatch.lean ====
section
/-! DEFINITION. The meaning of each command: for CRC, BUILD, MODULATE and BUILDMOD its completion step
(60_exceptions.md R231), for SRESET the effect of the `CMD` write (R230). -/

namespace Sys2Proof.Machine

def exec (i : Instr) (s : State) : Host.Outcome State Fault Refusal :=
  match i with
  | .crc => Sys2Proof.Machine.execCrc s
  | .build => Sys2Proof.Machine.execBuild s
  | .modulate => Sys2Proof.Machine.execModulate s
  | .buildmod => Sys2Proof.Machine.execBuildmod s
  | .sreset => Sys2Proof.Machine.execSreset s

end Sys2Proof.Machine
end

