-- ==== Sys2Proof/Machine/RegFile.lean ====
section
/-! DEFINITION. The register map (10_state.md R22) and the one operation that reads and the one that writes each
register (20_memory.md R62). -/

namespace Sys2Proof.Machine

/-- The registers in the order of their offsets (10_state.md R22). -/
def regList : List Reg :=
  [.id, .ctrl, .cmd, .status, .preFlags, .postFlags, .dstCall0, .dstCall1, .dstSsid, .srcCall0, .srcCall1, .srcSsid,
   .pathLen, .payloadLen, .frameLen, .startStuff, .endStuff, .sampleMax, .sampleCount, .crcOff, .crcLen, .crcResult,
   .modPhase, .modLevel]

/-- The register at a word index, offset / 4 (10_state.md R22). -/
def regAt (k : Nat) : Option Reg := regList[k]?

/-- The offset of a register (10_state.md R22). -/
def regOffset : Reg → Nat
  | .id => 0x000
  | .ctrl => 0x004
  | .cmd => 0x008
  | .status => 0x00C
  | .preFlags => 0x010
  | .postFlags => 0x014
  | .dstCall0 => 0x018
  | .dstCall1 => 0x01C
  | .dstSsid => 0x020
  | .srcCall0 => 0x024
  | .srcCall1 => 0x028
  | .srcSsid => 0x02C
  | .pathLen => 0x030
  | .payloadLen => 0x034
  | .frameLen => 0x038
  | .startStuff => 0x03C
  | .endStuff => 0x040
  | .sampleMax => 0x044
  | .sampleCount => 0x048
  | .crcOff => 0x04C
  | .crcLen => 0x050
  | .crcResult => 0x054
  | .modPhase => 0x058
  | .modLevel => 0x05C

/-- `ID`, TAG 0x5341, MAJOR 1, MINOR 0 (10_state.md R23). -/
def idWord : Word := 0x53410100

/-- The value of a register "with every RAZ bit 0 (a `WO` register reads 0)" (20_memory.md R62). -/
def State.readReg (s : State) : Reg → Word
  | .id => idWord
  | .ctrl => s.ctrlWord
  | .cmd => 0
  | .status => s.statusWord
  | .preFlags => s.regs.preFlags.setWidth 32
  | .postFlags => s.regs.postFlags.setWidth 32
  | .dstCall0 => s.regs.dstCall0
  | .dstCall1 => s.regs.dstCall1.setWidth 32
  | .dstSsid => s.regs.dstSsid.setWidth 32
  | .srcCall0 => s.regs.srcCall0
  | .srcCall1 => s.regs.srcCall1.setWidth 32
  | .srcSsid => s.regs.srcSsid.setWidth 32
  | .pathLen => s.regs.pathLen.setWidth 32
  | .payloadLen => s.regs.payloadLen.setWidth 32
  | .frameLen => s.regs.frameLen.setWidth 32
  | .startStuff => s.regs.startStuff.setWidth 32
  | .endStuff => s.regs.endStuff.setWidth 32
  | .sampleMax => s.regs.sampleMax.setWidth 32
  | .sampleCount => s.regs.sampleCount.setWidth 32
  | .crcOff => s.regs.crcOff.setWidth 32
  | .crcLen => s.regs.crcLen.setWidth 32
  | .crcResult => s.regs.crcResult.setWidth 32
  | .modPhase => s.regs.modPhase.setWidth 32
  | .modLevel => bitAt 0 s.regs.modLevel

/-- `P <- v[15:0] mod SAMPLE_RATE` (10_state.md R43). -/
def phaseWarl (rate : Nat) (v : Word) : BitVec 16 := BitVec.ofNat 16 ((v.setWidth 16).toNat % rate)

/-- A host write to a register, other than the command issue that a write to `CMD` is (HostPort.lean): RW fields
take the written bits, RO and RAZ/WI bits ignore the write, W1C bits are cleared where the written bit is 1
(20_memory.md R62). -/
def State.writeReg (r : Reg) (v : Word) (s : State) : State :=
  match r with
  | .id => s
  | .ctrl => s.writeCtrl v
  | .cmd => s
  | .status => s.writeStatus v
  | .preFlags => { s with regs := { s.regs with preFlags := v.setWidth 8 } }
  | .postFlags => { s with regs := { s.regs with postFlags := v.setWidth 8 } }
  | .dstCall0 => { s with regs := { s.regs with dstCall0 := v } }
  | .dstCall1 => { s with regs := { s.regs with dstCall1 := v.setWidth 16 } }
  | .dstSsid => { s with regs := { s.regs with dstSsid := v.setWidth 8 } }
  | .srcCall0 => { s with regs := { s.regs with srcCall0 := v } }
  | .srcCall1 => { s with regs := { s.regs with srcCall1 := v.setWidth 16 } }
  | .srcSsid => { s with regs := { s.regs with srcSsid := v.setWidth 8 } }
  | .pathLen => { s with regs := { s.regs with pathLen := v.setWidth 8 } }
  | .payloadLen => { s with regs := { s.regs with payloadLen := v.setWidth 16 } }
  | .frameLen => { s with regs := { s.regs with frameLen := v.setWidth 16 } }
  | .startStuff => { s with regs := { s.regs with startStuff := v.setWidth 16 } }
  | .endStuff => { s with regs := { s.regs with endStuff := v.setWidth 16 } }
  | .sampleMax => { s with regs := { s.regs with sampleMax := v.setWidth 17 } }
  | .sampleCount => s
  | .crcOff => { s with regs := { s.regs with crcOff := v.setWidth 16 } }
  | .crcLen => { s with regs := { s.regs with crcLen := v.setWidth 16 } }
  | .crcResult => s
  | .modPhase => { s with regs := { s.regs with modPhase := phaseWarl s.cfg.sampleRate v } }
  | .modLevel => { s with regs := { s.regs with modLevel := v.getLsbD 0 } }

end Sys2Proof.Machine
end

