-- ==== Sys2Proof/Machine/HostPort.lean ====
section
/-! DEFINITION. The host port (20_memory.md), the issue of a command (60_exceptions.md R230) and its completion step
(R231): what one event does. -/

namespace Sys2Proof.Machine

/-! ### The address map (20_memory.md R61) -/

/-- The base offset of each memory window. -/
def windowBase : BlockMem → Nat
  | .path => 0x00400
  | .payload => 0x00800
  | .frame => 0x01000
  | .sample => 0x10000

/-- The window whose rows of the map hold an offset, whatever the capacities. -/
def windowOf (off : Nat) : Option BlockMem :=
  if 0x00400 ≤ off ∧ off < 0x00438 then some .path
  else if 0x00800 ≤ off ∧ off < 0x00C00 then some .payload
  else if 0x01000 ≤ off ∧ off < 0x02000 then some .frame
  else if 0x10000 ≤ off ∧ off < 0x20000 then some .sample
  else none

/-- "Offset bits [1:0] are not decoded: a transfer at `off` acts on the word at `off & 0x1FFFC`" (R60). -/
def alignOffset (off : Nat) : Nat := 4 * (off / 4)

/-- The lanes of a window word that lie below the capacity: `n` of them, from byte index `i` (R63, R64). -/
def laneCount (cap i : Nat) : Nat := min 4 (cap - i)

/-- What an offset of the aperture names. -/
inductive Place where
  | register (r : Reg)
  /-- A window word with at least one lane below the capacity; `i` is its first byte's index. -/
  | window (m : BlockMem) (i : Nat)
  | reserved
deriving DecidableEq, Repr

/-- The address map (R61), with "the window words that lie wholly at or beyond a memory's capacity" reserved
(R63). -/
def locate (c : Config) (off : Nat) : Place :=
  match regAt (off / 4) with
  | some r => .register r
  | none =>
    match windowOf (alignOffset off) with
    | none => .reserved
    | some m =>
      if alignOffset off - windowBase m < c.cap m then .window m (alignOffset off - windowBase m) else .reserved

/-! ### Reads -/

/-- The word a place holds: registers R62, windows R64 with the lanes beyond the capacity 0 (R63), reserved 0. -/
def State.peek (s : State) : Place → Word
  | .register r => s.readReg r
  | .window m i => packLanes (s.readBytes m i (laneCount (s.cfg.cap m) i))
  | .reserved => 0

/-- The registers a read returns while a command is in flight (20_memory.md R74). -/
def readableBusy : Place → Bool
  | .register .id => true
  | .register .ctrl => true
  | .register .status => true
  | _ => false

/-- The port answers a read with a word. -/
def State.answer (v : Word) (s : State) : State := { s with reads := v :: s.reads }

/-- A host read of an offset: the value, or while busy, but for `ID`, `CTRL` and `STATUS`, a fresh free value
(20_memory.md R62, R63, R74). "No read has a side effect" (R71). -/
def State.hostRead (off : Nat) (s : State) : State :=
  if s.busy && !readableBusy (locate s.cfg off) then
    { s.answer (Config.busyReadWord s.draws) with draws := s.draws + 1 }
  else s.answer (s.peek (locate s.cfg off))

/-! ### Writes -/

/-- A write to a window word: each lane below the capacity, `M[i+j] <- v[8j+7:8j]` (20_memory.md R63, R64). -/
def State.writeWindow (m : BlockMem) (i : Nat) (v : Word) (s : State) : State :=
  s.writeBytes m i (lanes v (laneCount (s.cfg.cap m) i))

/-- The hold of the next command (70_reset_and_hazards.md R269; assumption 5: 0 where the list has run out). -/
def nextHold (s : State) : Nat := s.delays.headD 0

/-- The commands "Performed by the `CMD` write itself, not by a later completion step" (43_control.md R211). -/
def performedByWrite : Instr → Bool
  | .crc => false
  | .build => false
  | .modulate => false
  | .buildmod => false
  | .sreset => true

/-- The command word `v` becomes the command in flight, with the next hold. -/
def accept (v : Word) (s : State) : State :=
  { s.launch v (nextHold s) with delays := s.delays.tail }

/-- Issue, "A host write of value v to `CMD` while `STATUS.BUSY` = 0": SRESET at once, any other word, reserved ones
too, becomes the command in flight (60_exceptions.md R230; 43_control.md R212). -/
def issue (v : Word) (s : State) : Host.Outcome State Fault Refusal :=
  match decode v with
  | .ok i => if performedByWrite i then exec i s else .next (accept v s)
  | .error _ => .next (accept v s)

/-- A host write of an offset (20_memory.md R62, R63, R64, R75). -/
def hostWrite (off : Nat) (v : Word) (s : State) : Host.Outcome State Fault Refusal :=
  if s.busy then .next s.setWrBusy
  else
    match locate s.cfg off with
    | .register .cmd => issue v s
    | .register r => .next (s.writeReg r v)
    | .window m i => .next (s.writeWindow m i v)
    | .reserved => .next s.setBadAccess

/-! ### One event -/

/-- A host transfer passes: the command in flight has one fewer to wait for (70_reset_and_hazards.md R269). -/
def State.passTransfer (s : State) : State :=
  { s with inFlight := s.inFlight.map (fun c => { c with hold := c.hold - 1 }) }

/-- One event from outside, on a state whose list of events no longer holds it. A transfer outside the aperture is
refused (20_memory.md R60). `WAIT` reads `STATUS` and, while that returns `BUSY` = 1, stands to be done again
(30_encoding.md R96). -/
def inputEvent (x : Input) (s : State) : Host.Outcome State Fault Refusal :=
  match x with
  | .write addr v =>
    if s.cfg.decodes addr then hostWrite (addr - s.cfg.blockBase) v s.passTransfer
    else .refused (.outsideAperture addr)
  | .read addr =>
    if s.cfg.decodes addr then .next (s.passTransfer.hostRead (addr - s.cfg.blockBase))
    else .refused (.outsideAperture addr)
  | .wait =>
    if s.busy then .next { s.passTransfer.hostRead (regOffset .status) with inputs := .wait :: s.inputs }
    else .next (s.passTransfer.hostRead (regOffset .status))
  | .rst => .next s.hardReset

/-- The next event from outside; with none left and nothing in flight the block "does nothing, and all state is
kept" (60_exceptions.md R244). -/
def portEvent (s : State) : Host.Outcome State Fault Refusal :=
  match s.inputs with
  | [] => .next s
  | x :: rest => inputEvent x { s with inputs := rest }

/-- The completion step of the command in flight (60_exceptions.md R231); a reserved word's is 43_control.md R212. -/
def completionStep (w : Word) (s : State) : Host.Outcome State Fault Refusal :=
  match decode w with
  | .ok i => exec i s
  | .error _ => completeReserved s

/-- The engine moves next: the host transfers of the command's hold have passed, or the outside has nothing more
to do (70_reset_and_hazards.md R269, R271). -/
def engineDue (c : InFlight) (s : State) : Bool := c.hold == 0 || s.inputs.isEmpty

/-- One atomic event of the block: a completion step, or one event from outside (20_memory.md R73). -/
def event (s : State) : Host.Outcome State Fault Refusal :=
  match s.inFlight with
  | some c => if engineDue c s then completionStep c.word s else portEvent s
  | none => portEvent s

/-- The state in which the next event runs a command word: for SRESET its `CMD` write is the next event at an idle
block, for any other word it is in flight and due (60_exceptions.md R230, R231). -/
def placeCommand (w : Word) (s : State) : State :=
  match decode w with
  | .ok i =>
    if performedByWrite i then
      { s with inFlight := none, inputs := .write (s.cfg.blockBase + regOffset .cmd) w :: s.inputs }
    else s.launch w 0
  | .error _ => s.launch w 0

end Sys2Proof.Machine
end

