-- ==== Sys2Proof/Machine/Step.lean ====
section
/-! DEFINITION. One step of the block. -/

namespace Sys2Proof.Machine

/-- One atomic event (HostPort.lean), in a legal build: "a model refuses any other value" of a parameter
(00_scope.md R7, R8). -/
def step (s : State) : Host.Outcome State Fault Refusal :=
  if s.cfg.legal then event s else .refused .illegalBuild

/-- `s` with a command word placed so that the next step runs it (`placeCommand`): the block fetches nothing
(20_memory.md R78), a command comes from a host write to `CMD` (assumption 9). A number that is no 32-bit word places
its low 32 bits. -/
def State.withFetchWord (s : State) (nbits w : Nat) : State :=
  placeCommand (BitVec.ofNat 32 (w % 2 ^ nbits)) s

end Sys2Proof.Machine
end

