-- ==== Sys2Proof/Machine/HostSyntax.lean ====
section
/-! DEFINITION. Host programs: the statements and pseudo-instructions of 30_encoding.md R95, R96 as the transfers
they perform. -/

namespace Sys2Proof.Machine

/-- `off(<target>)` (30_encoding.md R95). -/
def targetOffset : HostTarget → Nat
  | .reg r => regOffset r
  | .window m w => windowBase m + 4 * w
  | .offset off => off

/-- The platform address of an offset (60_exceptions.md R241). -/
def platformAddr (c : Config) (off : Nat) : Nat := c.blockBase + off

/-- `WR <target>, <value>`. -/
def wrInput (c : Config) (t : HostTarget) (v : Word) : Input := .write (platformAddr c (targetOffset t)) v

/-- `RD <target>`. -/
def rdInput (c : Config) (t : HostTarget) : Input := .read (platformAddr c (targetOffset t))

/-- The writes of `WRBYTES`: "for each group of four bytes", lanes in order, "a missing byte of the last group is
written as 0x00"; `w` is the word index of the next group. -/
def wrGroups (c : Config) (m : BlockMem) : (w : Nat) → List Byte → List Input
  | _, [] => []
  | w, b0 :: b1 :: b2 :: b3 :: bs =>
    wrInput c (.window m w) (packLanes [b0, b1, b2, b3]) :: wrGroups c m (w + 1) bs
  | w, b :: bs => [wrInput c (.window m w) (packLanes (b :: bs))]

/-- The words that cover bytes k to k+n−1; none for n = 0. -/
def coverWords (k n : Nat) : List Nat :=
  if n = 0 then [] else List.range' (k / 4) ((k + n - 1) / 4 - k / 4 + 1)

/-- `WRCALL`: "the ASCII bytes of `<s>` followed by 0x00 bytes up to six", packed as 10_state.md R29. -/
def callPad (chars : List Byte) : List Byte := (chars ++ List.replicate 6 0).take 6

/-- The two registers of a callsign. -/
def callTargets : CallSide → HostTarget × HostTarget
  | .dst => (.reg .dstCall0, .reg .dstCall1)
  | .src => (.reg .srcCall0, .reg .srcCall1)

/-- The transfers of a statement (30_encoding.md R95, R96). -/
def HostStmt.expand (c : Config) : HostStmt → List Input
  | .wr t v => [wrInput c t v]
  | .rd t => [rdInput c t]
  | .cmd i => [wrInput c (.reg .cmd) (encode i)]
  | .wait => [.wait]
  | .wrcall side chars =>
    [wrInput c (callTargets side).1 (packLanes ((callPad chars).take 4)),
     wrInput c (callTargets side).2 (packLanes ((callPad chars).drop 4))]
  | .wrbytes m k bytes => wrGroups c m (k / 4) bytes
  | .rdbytes m k n => (coverWords k n).map (fun w => rdInput c (.window m w))

/-- A host program: its statements' transfers in order (30_encoding.md R95). -/
def hostProgram (c : Config) (p : List HostStmt) : List Input := p.flatMap (HostStmt.expand c)

end Sys2Proof.Machine
end

