-- ==== Sys2Proof/Safety.lean ====
section
/-! DEFINITION. What counts as a good state of the block, and the terms the statements use: the frame as the table of
41_framer.md R140 lays it out, the line code as a list of cells, the tones of a list of cells, and what an HDLC
receiver makes of the cells. None of the machine's definitions calls these. -/

namespace Sys2Proof.Machine

/-! ### Good states -/

/-- The invariant of the block: a legal build; every memory in canonical form inside its capacity;
`0 ≤ P < SAMPLE_RATE` (10_state.md R43); `SAMPLE_COUNT` a whole number of cells inside `SAMPLE_CAP`
(42_afsk.md R181); and while a command is in flight, which SRESET never is (43_control.md R211), `DONE` and `ERR_CODE`
are 0 (60_exceptions.md R230; "`BUSY` = 0 whenever `DONE` = 1", R237). -/
structure State.Inv (s : State) : Prop where
  build      : s.cfg.legal = true
  path       : Memory.wf (s.cfg.cap .path) s.pathMem
  payload    : Memory.wf (s.cfg.cap .payload) s.payloadMem
  frame      : Memory.wf (s.cfg.cap .frame) s.frameMem
  sample     : Memory.wf (s.cfg.cap .sample) s.sampleMem
  phase      : s.regs.modPhase.toNat < s.cfg.sampleRate
  count      : s.regs.sampleCount.toNat ≤ s.cfg.sampleCap
  wholeCells : s.regs.sampleCount.toNat % s.cfg.spb = 0
  flight     : ∀ c, s.inFlight = some c →
    c.word ≠ encode .sreset ∧ s.regs.done = false ∧ s.regs.errCode = .noError

/-- The engine does not move next: nothing is in flight, or host transfers of its hold are still to come
(70_reset_and_hazards.md R269). -/
def State.portNext (s : State) : Prop := ∀ c, s.inFlight = some c → c.hold ≠ 0

/-- `t` has the build, the host side and the epoch of `s`: every field but the registers, the command in flight and the
memories. -/
def State.sameSurround (s t : State) : Prop :=
  t.cfg = s.cfg ∧ t.inputs = s.inputs ∧ t.reads = s.reads ∧ t.delays = s.delays ∧ t.draws = s.draws ∧ t.epoch = s.epoch

/-- The register values after reset, by register (10_state.md R22, R49). -/
def resetValue : Reg → Word
  | .id => 0x53410100
  | .modLevel => 1
  | _ => 0

/-- The bits of a register that a host write of a RW register stores (10_state.md R24 to R44); `MOD_PHASE` is apart
(R43). -/
def rwMask : Reg → Option Word
  | .ctrl => some 0x3
  | .preFlags => some 0xFF
  | .postFlags => some 0xFF
  | .dstCall0 => some 0xFFFFFFFF
  | .dstCall1 => some 0xFFFF
  | .dstSsid => some 0xFF
  | .srcCall0 => some 0xFFFFFFFF
  | .srcCall1 => some 0xFFFF
  | .srcSsid => some 0xFF
  | .pathLen => some 0xFF
  | .payloadLen => some 0xFFFF
  | .frameLen => some 0xFFFF
  | .startStuff => some 0xFFFF
  | .endStuff => some 0xFFFF
  | .sampleMax => some 0x1FFFF
  | .crcOff => some 0xFFFF
  | .crcLen => some 0xFFFF
  | .modLevel => some 0x1
  | _ => none

/-! ### The frame by index (41_framer.md R140) -/

/-- `PAD(C, j)`: "0x20 if some m <= j has C[m] == 0x00, = C[j] otherwise" (41_framer.md R141). -/
def padAt (c : List Byte) (j : Nat) : Byte :=
  if (c.take (j + 1)).any (fun b => b == 0) then 0x20 else c.getD j 0

/-- The checks of BUILD all pass (41_framer.md R149). -/
def State.buildFits (s : State) : Prop :=
  s.pathBytes ≤ 56 ∧ s.pathBytes % 7 = 0 ∧ s.payloadBytes ≤ s.cfg.payloadCap ∧ s.frameTotal ≤ s.cfg.frameCap

/-- The byte at index `i` of the frame BUILD makes of `s`, row by row of the table of 41_framer.md R140; `f` is the
FCS. -/
def State.frameLayout (s : State) (f : BitVec 16) (i : Nat) : Byte :=
  let P := s.preCount
  let L := s.pathBytes
  let M := s.payloadBytes
  if i < P then 0x7E
  else if i < P + 6 then padAt s.dstCall (i - P) <<< 1
  else if i = P + 6 then (0x70 ||| (s.regs.dstSsid &&& 0x0F)) <<< 1
  else if i < P + 13 then padAt s.srcCall (i - (P + 7)) <<< 1
  else if i = P + 13 then ((0x30 ||| (s.regs.srcSsid &&& 0x0F)) <<< 1) ||| (if L = 0 then 0x01 else 0x00)
  else if i < P + 14 + L then
    (s.byte .path (i - (P + 14)) <<< 1) ||| (if i = P + 13 + L then 0x01 else 0x00)
  else if i = P + 14 + L then 0x03
  else if i = P + 15 + L then 0xF0
  else if i < P + 16 + L + M then s.byte .payload (i - (P + 16 + L))
  else if i = P + 16 + L + M then f.setWidth 8
  else if i = P + 17 + L + M then (f >>> 8).setWidth 8
  else 0x7E

/-! ### The line code and the tones -/

/-- The input bits of a run, in the order of 42_afsk.md R174, each with whether its byte is in the stuffing region. -/
def taggedBits (lo hi : Int) : (i : Nat) → List Byte → List (Bool × Bool)
  | _, [] => []
  | i, b :: bs =>
    (List.range 8).map (fun j => (decide (lo < (i : Int) ∧ (i : Int) < hi), b.getLsbD j)) ++ taggedBits lo hi (i + 1) bs

/-- The levels of the cells of a bit sequence (42_afsk.md R175, R177, R178), from the level before it and the number of
ones counted so far. -/
def lineCode : (level : Bool) → (ones : Nat) → List (Bool × Bool) → List Bool
  | _, _, [] => []
  | l, _, (false, b) :: rest => (l ^^ !b) :: lineCode (l ^^ !b) 0 rest
  | l, _, (true, false) :: rest => (!l) :: lineCode (!l) 0 rest
  | l, n, (true, true) :: rest =>
    if n + 1 = 5 then l :: (!l) :: lineCode (!l) 0 rest else l :: lineCode l (n + 1) rest

/-- How many of the cells of `lineCode` are stuffed bits. -/
def stuffedCells : (ones : Nat) → List (Bool × Bool) → Nat
  | _, [] => 0
  | _, (false, _) :: rest => stuffedCells 0 rest
  | _, (true, false) :: rest => stuffedCells 0 rest
  | n, (true, true) :: rest => if n + 1 = 5 then stuffedCells 0 rest + 1 else stuffedCells (n + 1) rest

/-- The samples of one cell that begins at phase `p` (42_afsk.md R170 to R173). -/
def cellTones (rate spb p : Nat) (level : Bool) : List Byte :=
  (List.range spb).map (fun k => sine rate (p + k * if level then 1200 else 2200))

/-- The phase after one cell (42_afsk.md R170). -/
def cellPhase (rate spb p : Nat) (level : Bool) : Nat := (p + spb * if level then 1200 else 2200) % rate

/-- The samples of a sequence of cells. -/
def tones (rate spb : Nat) : Nat → List Bool → List Byte
  | _, [] => []
  | p, l :: ls => cellTones rate spb p l ++ tones rate spb (cellPhase rate spb p l) ls

/-- The phase after a sequence of cells. -/
def tonesPhase (rate spb : Nat) : Nat → List Bool → Nat
  | p, [] => p
  | p, l :: ls => tonesPhase rate spb (cellPhase rate spb p l) ls

/-- The phase and the level a MODULATE of `s` starts from (42_afsk.md R179). -/
def State.startPhase (s : State) : Nat := if s.regs.keepModState then s.regs.modPhase.toNat else 0
/-- The level a MODULATE of `s` starts from (42_afsk.md R179). -/
def State.startLevel (s : State) : Bool := if s.regs.keepModState then s.regs.modLevel else true

/-- The input bits of a MODULATE of `s`. -/
def State.inputBits (s : State) : List (Bool × Bool) :=
  taggedBits s.stuffStart s.stuffEnd 0 ((List.range s.frameCount).map (s.byte .frame))

/-- The cells a MODULATE of `s` sends if there is room for all. -/
def State.lineCells (s : State) : List Bool := lineCode s.startLevel 0 s.inputBits

/-! ### A receiver -/

/-- NRZI decoding: "a 0 bit is a change of level between consecutive cells and a 1 bit is no change"
(42_afsk.md R183 (e)). -/
def nrziDecode : (level : Bool) → List Bool → List Bool
  | _, [] => []
  | l, c :: cs => (c == l) :: nrziDecode c cs

/-- Removal of stuffed bits: the bit after five ones in a row is dropped; `n` counts the ones so far. -/
def unstuff : (n : Nat) → List Bool → List Bool
  | _, [] => []
  | n, b :: bs =>
    if n = 5 then unstuff 0 bs
    else if b then true :: unstuff (n + 1) bs
    else false :: unstuff 0 bs

/-- Which of the bits a MODULATE of `s` sends lie in the stuffing region (42_afsk.md R176), told by the index of their
byte alone. -/
def State.regionBits (s : State) : List Bool :=
  (List.range s.frameCount).flatMap (fun i : Nat =>
    List.replicate 8 (decide (s.stuffStart < (i : Int) ∧ (i : Int) < s.stuffEnd)))

/-- A receiver that removes stuffed bits inside the region alone: it decodes one bit for each entry of the list that
tells which bits lie in the region, drops the cell after five ones counted inside it (42_afsk.md R177, R183 (d)), counts
nothing outside it (R178), and gives any cells left over as further bits. -/
def receive : (level : Bool) → (ones : Nat) → (inRegion cells : List Bool) → List Bool
  | l, _, [], cells => nrziDecode l cells
  | _, _, _ :: _, [] => []
  | l, n, r :: rs, c :: cs =>
    if r && c == l then
      if n + 1 = 5 then
        match cs with
        | [] => [true]
        | d :: ds => true :: receive d 0 rs ds
      else true :: receive c (n + 1) rs cs
    else (c == l) :: receive c 0 rs cs

end Sys2Proof.Machine
end

