-- ==== Sys2Proof/Certificates/Slice0/Obligations.lean ====
section
/-! DEFINITION. The statements for the provers. Each says which rule or section of the spec it formalises. Where a
statement speaks of the model's own fields (`inputs`, `reads`, `delays`, `draws`, `epoch`, `hold`: assumptions 3 to 7)
it holds for every value of them, and what it says of them is the model's choice and no rule of the spec. -/

open Sys2Proof Sys2Proof.Machine

/-! ### Command words -/

/-- 30_encoding.md R91: the table of command words, and R92: every other word is reserved. -/
def Obligations.DecodeSelectsByTheWholeWord : Prop :=
  ∀ (w : Word) (i : Instr), decode w = .ok i ↔
    (w = 0x00000001 ∧ i = .crc) ∨ (w = 0x00000002 ∧ i = .build) ∨ (w = 0x00000003 ∧ i = .modulate) ∨
    (w = 0x00000004 ∧ i = .buildmod) ∨ (w = 0x0000000F ∧ i = .sreset)

/-- 30_encoding.md R90, R91: decoding an encoded command gives it back (a command has no operand). -/
def Obligations.EncodeThenDecodeGivesTheCommand : Prop := ∀ i : Instr, decode (encode i) = .ok i

/-- 30_encoding.md R91, R92: words written out from the rules, a sanity check. -/
def Obligations.SpecWordsDecodeAsWritten : Prop :=
  decode 0b00000000000000000000000000000001 = .ok .crc ∧
  decode 0b00000000000000000000000000000010 = .ok .build ∧
  decode 0b00000000000000000000000000000011 = .ok .modulate ∧
  decode 0b00000000000000000000000000000100 = .ok .buildmod ∧
  decode 0b00000000000000000000000000001111 = .ok .sreset ∧
  decode 0x00000000 = .error (.reservedOp 0) ∧ decode 0x0000000E = .error (.reservedOp 0xE) ∧
  decode 0x00000011 = .error (.nonzeroMbz 1) ∧ decode 0x0000001F = .error (.nonzeroMbz 1)

/-! ### Steps -/

/-- 60_exceptions.md R231: when the engine is due, a step is the completion step of the command in flight, which is
`exec` of the command its word decodes to; nothing is added around it. WHEN the engine is due (`hold` at 0, or no event
left) is the model's choice (assumption 5, DESIGN CHOICE): R231 and 70_reset_and_hazards.md R269 leave the moment open. -/
def Obligations.StepRunsTheDecodedCommand : Prop :=
  ∀ (s : State) (c : InFlight) (i : Instr),
    s.cfg.legal = true → s.inFlight = some c → decode c.word = .ok i → (c.hold = 0 ∨ s.inputs = []) →
    step s = exec i s

/-- 60_exceptions.md R230, with 20_memory.md R60 (offset bits [1:0] ignored): a write of `v` to `CMD`. With nothing
in flight, 0xF is SRESET at once and every other word, reserved ones too, is issued; while a command is in flight the
write is dropped (R75). The clauses on `hold` and `delays` are the model's choice (assumption 5, DESIGN CHOICE). -/
def Obligations.CommandWriteIssues : Prop :=
  ∀ (s : State) (addr : Nat) (v : Word) (rest : List Input),
    s.cfg.legal = true → s.inputs = .write addr v :: rest → s.cfg.blockBase ≤ addr →
    (addr - s.cfg.blockBase) / 4 = 2 →
    (s.inFlight = none → v = 0x0000000F →
      step s = .next { s with inputs := rest, regs := Regs.reset }) ∧
    (s.inFlight = none → v ≠ 0x0000000F →
      step s = .next { s with
        inputs := rest
        inFlight := some { word := v, hold := s.delays.headD 0 }
        delays := s.delays.tail
        regs := { s.regs with done := false, errCode := .noError } }) ∧
    (∀ c, s.inFlight = some c → c.hold ≠ 0 →
      step s = .next { s with
        inputs := rest
        inFlight := some { word := c.word, hold := c.hold - 1 }
        regs := { s.regs with wrBusy := true } })

/-- 43_control.md R212: a `CMD` value other than the five codes is issued like any command (60_exceptions.md R230), and
its completion step sets `DONE` and `ERR_CODE` = 1 and changes nothing else. The hold that the issue gives, and when the
completion step is due, are the model's choice (assumption 5, DESIGN CHOICE). -/
def Obligations.ReservedWordCompletesWithBadCmd : Prop :=
  ∀ (s : State) (w : Word), s.cfg.legal = true → w ≠ 0x1 → w ≠ 0x2 → w ≠ 0x3 → w ≠ 0x4 → w ≠ 0xF →
    (∀ rest, s.inFlight = none → s.inputs = .write (s.cfg.blockBase + 8) w :: rest →
      step s = .next { s with
        inputs := rest
        inFlight := some { word := w, hold := s.delays.headD 0 }
        delays := s.delays.tail
        regs := { s.regs with done := false, errCode := .noError } }) ∧
    (∀ hold, s.inFlight = some { word := w, hold := hold } → (hold = 0 ∨ s.inputs = []) →
      step s = .next { s with inFlight := none, regs := { s.regs with done := true, errCode := .badCmd } })

/-- 70_reset_and_hazards.md R269 (1): whatever the host transfers, a command in flight completes after finitely many
steps. The bound, its hold and one, is the model's (assumption 5, DESIGN CHOICE). -/
def Obligations.InFlightCommandCompletes : Prop :=
  ∀ (s : State) (c : InFlight),
    s.cfg.legal = true → s.inFlight = some c → c.word ≠ encode .sreset →
    (∀ x ∈ s.inputs, x.wellFormed s.cfg = true ∧ x ≠ .rst) →
    ∃ (n : Nat) (t : State), n ≤ c.hold + 1 ∧ Host.Core.run Sys2Proof.core n s = .next t ∧
      t.inFlight = none ∧ t.regs.done = true

/-- 30_encoding.md R96 (`WAIT`), 70_reset_and_hazards.md R269: the polling loop ends; it reads `STATUS` once for every
transfer of the hold, each time with `BUSY` = 1, and once after the completion step. The count of busy reads by the hold
(assumption 5) and `WAIT` as one event that repeats (assumption 6) are the model's choice (DESIGN CHOICE). -/
def Obligations.WaitEndsAfterTheCompletion : Prop :=
  ∀ (s : State) (c : InFlight) (rest : List Input),
    s.cfg.legal = true → s.inFlight = some c → c.word ≠ encode .sreset → s.inputs = .wait :: rest →
    ∃ t : State, Host.Core.run Sys2Proof.core (c.hold + 2) s = .next t ∧
      t.inputs = rest ∧ t.inFlight = none ∧ t.regs.done = true ∧ t.statusWord.getLsbD 0 = false ∧
      t.reads = t.statusWord :: (List.replicate c.hold s.statusWord ++ s.reads)

/-- Every step keeps the invariant of Safety.lean: memories in canonical form inside their capacities, the phase below
`SAMPLE_RATE` (10_state.md R43), `SAMPLE_COUNT` whole cells inside `SAMPLE_CAP`, and no `DONE` or error while a command
is in flight (60_exceptions.md R230, R237). -/
def Obligations.StepKeepsTheInvariant : Prop :=
  ∀ s t : State, s.Inv → step s = .next t → t.Inv

/-- The invariant holds after reset (10_state.md R49). -/
def Obligations.ResetMeetsTheInvariant : Prop := State.reset.Inv

/-- 00_scope.md R7, R8: the parameters are "fixed when the block is built". -/
def Obligations.BuildParametersNeverChange : Prop :=
  ∀ s t : State, step s = .next t → t.cfg = s.cfg

/-- 60_exceptions.md R236 and 93_implementation_defined.md ("the block never hangs"): in a legal build, with only
transfers the block decodes to come, every step answers a next state. -/
def Obligations.LegalBlockNeverStops : Prop :=
  ∀ s : State, s.cfg.legal = true → (∀ x ∈ s.inputs, x.wellFormed s.cfg = true) → ∃ t, step s = .next t

/-- 93_implementation_defined.md sections 2 and 4: what the spec lists as `refuse` is refused, an illegal build always
and a transfer at offset 0x20000 or above (20_memory.md R60) when it comes to be performed. The clause on an address below
`BLOCK_BASE` is the model's, not the spec's (assumption 12, DEDUCED): such an address has no offset. -/
def Obligations.RefusesWhatTheSpecRefuses : Prop :=
  (∀ s : State, s.cfg.legal = false → step s = .refused .illegalBuild) ∧
  (∀ (s : State) (addr : Nat) (v : Word) (rest : List Input), s.cfg.legal = true → s.portNext →
    (addr < s.cfg.blockBase ∨ s.cfg.blockBase + 0x20000 ≤ addr) →
    (s.inputs = .write addr v :: rest → step s = .refused (.outsideAperture addr)) ∧
    (s.inputs = .read addr :: rest → step s = .refused (.outsideAperture addr)))

/-- 60_exceptions.md R244: "when no command is in flight it does nothing, and all state is kept". -/
def Obligations.IdleBlockKeepsItsState : Prop :=
  ∀ s : State, s.cfg.legal = true → s.inFlight = none → s.inputs = [] → step s = .next s

/-! ### CRC -/

/-- 40_crc.md R124: what `CRC` does, in range and out of range, on every state. -/
def Obligations.CrcCommandComputesOrFails : Prop :=
  ∀ s : State,
    (s.regs.crcOff.toNat + s.regs.crcLen.toNat ≤ s.cfg.frameCap →
      exec .crc s = .next { s with
        inFlight := none
        regs := { s.regs with
          crcResult := crc16 ((List.range s.regs.crcLen.toNat).map (fun k => s.byte .frame (s.regs.crcOff.toNat + k)))
          done := true
          errCode := .noError } }) ∧
    (s.cfg.frameCap < s.regs.crcOff.toNat + s.regs.crcLen.toNat →
      exec .crc s = .next { s with inFlight := none, regs := { s.regs with done := true, errCode := .badLen } })

/-- The frame of `CRC` (40_crc.md R124; 20_memory.md R72): no memory byte and no register but `CRC_RESULT` and
`STATUS.DONE`, `STATUS.ERR_CODE`. -/
def Obligations.CrcChangesOnlyItsResult : Prop :=
  ∀ s t : State, exec .crc s = .next t →
    t.regs = { s.regs with crcResult := t.regs.crcResult, done := true, errCode := t.regs.errCode } ∧
    (∀ m i, t.byte m i = s.byte m i) ∧ s.sameSurround t

/-- 40_crc.md R121: the check values, and for every byte sequence the residue 0xF0B8, with the complement 0x0F47. -/
def Obligations.CrcOfASequenceWithItsFcs : Prop :=
  crc16 [] = 0x0000 ∧ crc16 [0x00] = 0xF078 ∧ crc16 [0xFF] = 0xFF00 ∧ crc16 [0x41] = 0xA3F5 ∧
  crc16 [0x31, 0x32, 0x33, 0x34, 0x35, 0x36, 0x37, 0x38, 0x39] = 0x906E ∧
  ∀ d : List Byte,
    crcRun 0xFFFF (d ++ [(crc16 d).setWidth 8, (crc16 d >>> 8).setWidth 8]) = 0xF0B8 ∧
    crc16 (d ++ [(crc16 d).setWidth 8, (crc16 d >>> 8).setWidth 8]) = 0x0F47

/-- 40_crc.md R122: the byte-at-a-time form is the recurrence of R120, for every register and byte; run over a byte
sequence from 0xFFFF, "then the final complement", it gives `CRC16`. -/
def Obligations.CrcBytewiseFormIsTheSame : Prop :=
  let form (c : BitVec 16) (b : Byte) : BitVec 16 :=
    let x : Byte := b ^^^ c.setWidth 8
    let y : Byte := x ^^^ (x <<< 4)
    ((y.setWidth 16 <<< 8) ||| (c >>> 8)) ^^^ (y >>> 4).setWidth 16 ^^^ (y.setWidth 16 <<< 3)
  (∀ (c : BitVec 16) (b : Byte), crcByte c b = form c b) ∧
  (∀ d : List Byte, d.foldl form 0xFFFF ^^^ 0xFFFF = crc16 d) ∧
  [0x31, 0x32, 0x33, 0x34, 0x35, 0x36, 0x37, 0x38, 0x39].foldl form 0xFFFF ^^^ 0xFFFF = 0x906E

/-! ### BUILD -/

/-- 41_framer.md R140 to R148: where its checks pass, `BUILD` completes with code 0, the frame stands in `FRAME_MEM`
index by index as the table of R140 says, its FCS being the CRC of the stored bytes from the first destination byte to
the last payload byte (R146), and the three registers of R148 hold T, P - 1 and P + 18 + L + M. -/
def Obligations.BuildWritesTheFrameLayout : Prop :=
  ∀ s : State, s.buildFits →
    ∃ t, exec .build s = .next t ∧
      t.regs = { s.regs with
        frameLen := BitVec.ofNat 16 s.frameTotal
        startStuff := BitVec.ofInt 16 ((s.preCount : Int) - 1)
        endStuff := BitVec.ofNat 16 (s.preCount + 18 + s.pathBytes + s.payloadBytes)
        done := true
        errCode := .noError } ∧
      t.inFlight = none ∧
      ∀ i, i < s.frameTotal →
        t.byte .frame i =
          s.frameLayout
            (crc16 ((List.range (16 + s.pathBytes + s.payloadBytes)).map (fun k => t.byte .frame (s.preCount + k)))) i

/-- 41_framer.md R150 and 60_exceptions.md R234: a `BUILD` whose check fails. The first failing check gives the code;
`FRAME_LEN` becomes 0 and nothing else changes. -/
def Obligations.BuildFailsWithoutWriting : Prop :=
  ∀ s : State,
    let failed (e : ErrCode) : State :=
      { s with inFlight := none, regs := { s.regs with frameLen := 0, done := true, errCode := e } }
    ((56 < s.pathBytes ∨ s.pathBytes % 7 ≠ 0) → exec .build s = .next (failed .badLen)) ∧
    (s.cfg.payloadCap < s.payloadBytes → exec .build s = .next (failed .badLen)) ∧
    (s.pathBytes ≤ 56 → s.pathBytes % 7 = 0 → s.payloadBytes ≤ s.cfg.payloadCap → s.cfg.frameCap < s.frameTotal →
      exec .build s = .next (failed .frameOverflow))

/-- The frame of `BUILD` (41_framer.md R148, R150; 20_memory.md R67, R72): no register but `FRAME_LEN`, `START_STUFF`,
`END_STUFF`, `STATUS.DONE` and `STATUS.ERR_CODE`; the bytes it stores are `FRAME_MEM[0 .. T)`, and none on an error;
every other byte of every memory reads as before. -/
def Obligations.BuildChangesOnlyTheFrame : Prop :=
  ∀ s t : State, exec .build s = .next t →
    t.regs = { s.regs with
      frameLen := t.regs.frameLen, startStuff := t.regs.startStuff, endStuff := t.regs.endStuff
      done := true, errCode := t.regs.errCode } ∧
    (t.regs.errCode ≠ .noError → t.regs.startStuff = s.regs.startStuff ∧ t.regs.endStuff = s.regs.endStuff) ∧
    (∀ m i, m ≠ .frame → t.byte m i = s.byte m i) ∧
    (∀ i, (t.regs.errCode = .noError → s.frameTotal ≤ i) → t.byte .frame i = s.byte .frame i) ∧
    s.sameSurround t

/-- 41_framer.md R151: the encoded SSID bytes as stored in the frame. -/
def Obligations.SsidBytesAsStored : Prop :=
  ∀ s t : State, s.buildFits → exec .build s = .next t →
    t.byte .frame (s.preCount + 6) = 0xE0 ||| ((s.regs.dstSsid &&& 0x0F) <<< 1) ∧
    t.byte .frame (s.preCount + 13) =
      0x60 ||| ((s.regs.srcSsid &&& 0x0F) <<< 1) ||| (if s.pathBytes = 0 then 0x01 else 0x00)

/-- 41_framer.md R143: "bit 0 of every address byte except the last is 0", and 1 in the last. -/
def Obligations.AddressExtensionBitMarksTheLastAddressByte : Prop :=
  ∀ s t : State, s.buildFits → exec .build s = .next t →
    ∀ k, k < 14 + s.pathBytes →
      (t.byte .frame (s.preCount + k)).getLsbD 0 = decide (k + 1 = 14 + s.pathBytes)

/-- 95_test_vectors.md L1.1 and 40_crc.md R121, R146: the CRC over the address through the FCS of a built frame is
0x0F47, the good-FCS residue with the complement, whatever the operands. -/
def Obligations.BuiltFrameHasAGoodFcs : Prop :=
  ∀ s t : State, s.buildFits → exec .build s = .next t →
    crc16 ((List.range (18 + s.pathBytes + s.payloadBytes)).map (fun k => t.byte .frame (s.preCount + k))) = 0x0F47

/-- 70_reset_and_hazards.md R263: straight after reset, `BUILD` makes the 18-byte frame of empty callsigns
(95_test_vectors.md F5) and `MODULATE` succeeds with no sample. -/
def Obligations.BuildAndModulateStraightAfterReset : Prop :=
  (∃ t, exec .build State.reset = .next t ∧ t.regs.errCode = .noError ∧ t.regs.frameLen = 18 ∧
    t.regs.startStuff = 0xFFFF ∧ t.regs.endStuff = 18 ∧
    (List.range 18).map (t.byte .frame) =
      [0x40, 0x40, 0x40, 0x40, 0x40, 0x40, 0xE0, 0x40, 0x40, 0x40, 0x40, 0x40, 0x40, 0x61, 0x03, 0xF0, 0xDC, 0x54]) ∧
  (∃ t, exec .modulate State.reset = .next t ∧ t.regs.errCode = .noError ∧ t.regs.sampleCount = 0 ∧
    t.regs.modPhase = 0 ∧ t.regs.modLevel = true)

/-! ### MODULATE -/

/-- 42_afsk.md R173 to R182: with its lengths in range, `MODULATE` sends the line code of the frame (NRZI, R175, with
stuffing inside the region, R177, and none outside, R178) as tones with one continuous phase (R170 to R173), from the
initial state of R179. Where all cells fit in MAX it completes with code 0 and their number of samples (R181);
otherwise it ends with `SAMPLE_OVERFLOW`, `SAMPLE_COUNT` 0, the samples of the ⌊MAX/SPB⌋ cells that fit, the phase
after them and the level of the refused cell (R180). The whole next state is given. -/
def Obligations.ModulateSendsTheLineCodeAsTones : Prop :=
  ∀ s : State, s.cfg.legal = true → s.frameCount ≤ s.cfg.frameCap → s.sampleLimit ≤ s.cfg.sampleCap →
    let spb := s.cfg.spb
    let rate := s.cfg.sampleRate
    let room := s.sampleLimit / spb
    let sent := s.lineCells.take room
    (s.lineCells.length ≤ room →
      exec .modulate s = .next { s with
        inFlight := none
        sampleMem := Memory.write s.sampleMem 0 (tones rate spb s.startPhase s.lineCells)
        regs := { s.regs with
          sampleCount := BitVec.ofNat 17 (spb * s.lineCells.length)
          modPhase := BitVec.ofNat 16 (tonesPhase rate spb s.startPhase s.lineCells)
          modLevel := s.lineCells.getLastD s.startLevel
          done := true
          errCode := .noError } }) ∧
    (room < s.lineCells.length →
      exec .modulate s = .next { s with
        inFlight := none
        sampleMem := Memory.write s.sampleMem 0 (tones rate spb s.startPhase sent)
        regs := { s.regs with
          sampleCount := 0
          modPhase := BitVec.ofNat 16 (tonesPhase rate spb s.startPhase sent)
          modLevel := s.lineCells.getD room s.startLevel
          done := true
          errCode := .sampleOverflow } })

/-- 42_afsk.md R182 (errors) and 60_exceptions.md R234: a length out of range fails with `BAD_LEN` "before any state
changes (the initial state of rule R179 is not applied)", but for `SAMPLE_COUNT <- 0`. -/
def Obligations.ModulateRejectsBadLengths : Prop :=
  ∀ s : State, (s.cfg.frameCap < s.frameCount ∨ s.cfg.sampleCap < s.sampleLimit) →
    exec .modulate s = .next { s with
      inFlight := none, regs := { s.regs with sampleCount := 0, done := true, errCode := .badLen } }

/-- The frame of `MODULATE` (20_memory.md R68, R72; 42_afsk.md R180, R181): no register but `SAMPLE_COUNT`,
`MOD_PHASE`, `MOD_LEVEL`, `STATUS.DONE` and `STATUS.ERR_CODE`; the bytes it stores are `SAMPLE_MEM[0 .. n)`, n being
`SAMPLE_COUNT` on success, `SPB` × ⌊MAX/`SPB`⌋ after an abort, and 0 on `BAD_LEN`; every other byte of every memory
reads as before. -/
def Obligations.ModulateChangesOnlyTheSamples : Prop :=
  ∀ s t : State, s.cfg.legal = true → exec .modulate s = .next t →
    let n := if t.regs.errCode = .noError then t.regs.sampleCount.toNat
      else if t.regs.errCode = .sampleOverflow then s.cfg.spb * (s.sampleLimit / s.cfg.spb) else 0
    t.regs = { s.regs with
      sampleCount := t.regs.sampleCount, modPhase := t.regs.modPhase, modLevel := t.regs.modLevel
      done := true, errCode := t.regs.errCode } ∧
    (∀ m i, m ≠ .sample → t.byte m i = s.byte m i) ∧
    (∀ i, n ≤ i → t.byte .sample i = s.byte .sample i) ∧
    n ≤ s.sampleLimit ∧ s.sameSurround t

/-- 42_afsk.md R181: on success `SAMPLE_COUNT` is `SPB` × (8N + S), S the number of stuffed bits inserted. -/
def Obligations.SampleCountCountsTheCells : Prop :=
  ∀ s t : State, s.cfg.legal = true → exec .modulate s = .next t → t.regs.errCode = .noError →
    t.regs.sampleCount.toNat = s.cfg.spb * (8 * s.frameCount + stuffedCells 0 s.inputBits)

/-- 42_afsk.md R174 to R178, R183 (d), (e): a successful `MODULATE` stores the tones of a sequence of cells from which
a receiver gets the frame's bits back, LSB first, with no cell left over: for EVERY frame and stuffing region by a
receiver that is told which bits lie in the region and removes stuffed bits there alone; by NRZI decoding alone where no
byte is in the region; and by NRZI decoding with all stuffed bits removed where every byte is. -/
def Obligations.ReceiverRecoversTheFrame : Prop :=
  ∀ s t : State, s.cfg.legal = true → exec .modulate s = .next t → t.regs.errCode = .noError →
    let bits := (List.range s.frameCount).flatMap (fun i => (List.range 8).map (s.byte .frame i).getLsbD)
    ∃ cells : List Bool,
      (List.range t.regs.sampleCount.toNat).map (t.byte .sample) =
        tones s.cfg.sampleRate s.cfg.spb s.startPhase cells ∧
      receive s.startLevel 0 s.regionBits cells = bits ∧
      ((∀ i : Nat, i < s.frameCount → ¬(s.stuffStart < (i : Int) ∧ (i : Int) < s.stuffEnd)) →
        nrziDecode s.startLevel cells = bits) ∧
      ((∀ i : Nat, i < s.frameCount → s.stuffStart < (i : Int) ∧ (i : Int) < s.stuffEnd) →
        unstuff 0 (nrziDecode s.startLevel cells) = bits)

/-! ### SINE -/

/-- 42_afsk.md R171: the table of `SINE(200k)`, k = 0 to 59, at the default rate. -/
def Obligations.SineTableAtTheDefaultRate : Prop :=
  (List.range 60).map (fun k => sine 12000 (200 * k)) =
    [127, 140, 153, 166, 179, 191, 202, 212, 221, 230, 237, 243, 248, 251, 253, 254, 253, 251, 248, 243,
     237, 230, 221, 212, 202, 191, 179, 166, 153, 140, 127, 114, 101, 88, 75, 64, 52, 42, 33, 24,
     17, 11, 6, 3, 1, 0, 1, 3, 6, 11, 17, 24, 33, 42, 52, 64, 75, 88, 101, 114]

/-- 42_afsk.md R171 at every legal `SAMPLE_RATE`: the fraction that `SINE` rounds is 127 × (sin(2π·P/SAMPLE_RATE) + 1)
within 10^-9, and exact (a halfway case, 190.5 or 63.5) at one, five, seven and eleven twelfths of the circle. -/
def Obligations.SampleFractionIsAccurate : Prop :=
  ∀ c : Config, c.legal = true → ∀ p : Nat, p < c.sampleRate →
    |((sampleFraction c.sampleRate p).1 : ℝ) / ((sampleFraction c.sampleRate p).2 : ℝ) -
      127 * (Real.sin (2 * Real.pi * p / c.sampleRate) + 1)| ≤ 1 / 1000000000 ∧
    (12 * p = c.sampleRate ∨ 12 * p = 5 * c.sampleRate →
      2 * (sampleFraction c.sampleRate p).1 = 381 * (sampleFraction c.sampleRate p).2) ∧
    (12 * p = 7 * c.sampleRate ∨ 12 * p = 11 * c.sampleRate →
      2 * (sampleFraction c.sampleRate p).1 = 127 * (sampleFraction c.sampleRate p).2)

/-- 42_afsk.md R171 at the default rate: `SINE(P)` is 127 × (sin(2π·P/12000) + 1) rounded once in exact real
arithmetic, halves upward, which is away from zero since the value is not negative. -/
def Obligations.SineIsExactAtTheDefaultRate : Prop :=
  ∀ p : Nat, p < 12000 →
    ((sine 12000 p).toNat : ℤ) = ⌊127 * (Real.sin (2 * Real.pi * p / 12000) + 1) + 1 / 2⌋

/-- 42_afsk.md R171: "its range is 0 to 254 (255 never occurs)", at every legal rate and every phase. -/
def Obligations.SamplesNeverExceed254 : Prop :=
  ∀ c : Config, c.legal = true → ∀ p : Nat, (sine c.sampleRate p).toNat ≤ 254

/-! ### BUILDMOD and SRESET -/

/-- 43_control.md R210: `BUILDMOD` is `BUILD` and then, if it succeeded, `MODULATE` of the state it leaves; if `BUILD`
failed, its code and `SAMPLE_COUNT` 0, with the samples, the phase and the level unchanged. -/
def Obligations.BuildmodIsBuildThenModulate : Prop :=
  ∀ s : State, ∃ u t, exec .build s = .next u ∧ exec .buildmod s = .next t ∧
    (u.regs.errCode = .noError → exec .modulate u = .next t) ∧
    (u.regs.errCode ≠ .noError → t = { u with regs := { u.regs with sampleCount := 0 } })

/-- 43_control.md R210 with 41_framer.md R148 and 42_afsk.md R181: a `BUILDMOD` completes with code 0 where the frame
fits and the sample limit, inside `SAMPLE_CAP`, leaves room for its bits and at most one stuffed bit for every five. -/
def Obligations.BuildmodSucceedsWhenItFits : Prop :=
  ∀ s : State, s.cfg.legal = true → s.buildFits → s.sampleLimit ≤ s.cfg.sampleCap →
    s.cfg.spb * (8 * s.frameTotal + 8 * s.frameTotal / 5) ≤ s.sampleLimit →
    ∃ u t k, exec .build s = .next u ∧ exec .buildmod s = .next t ∧
      t.regs.errCode = .noError ∧ t.regs.done = true ∧ t.inFlight = none ∧
      t.regs.frameLen = BitVec.ofNat 16 s.frameTotal ∧ t.regs.startStuff = u.regs.startStuff ∧
      t.regs.endStuff = u.regs.endStuff ∧ (∀ i, t.byte .frame i = u.byte .frame i) ∧
      k ≤ 8 * s.frameTotal / 5 ∧ t.regs.sampleCount.toNat = s.cfg.spb * (8 * s.frameTotal + k)

/-- The frame of `BUILDMOD` (43_control.md R210; 20_memory.md R72): no register but those of `BUILD` and of
`MODULATE`; `FRAME_MEM` changes only below T and only where `BUILD` succeeded, `SAMPLE_MEM` only below `SPB` ×
⌊MAX/`SPB`⌋ and only where `MODULATE` ran; the other memories not at all. -/
def Obligations.BuildmodChangesOnlyFrameAndSamples : Prop :=
  ∀ s t : State, s.cfg.legal = true → exec .buildmod s = .next t →
    t.regs = { s.regs with
      frameLen := t.regs.frameLen, startStuff := t.regs.startStuff, endStuff := t.regs.endStuff
      sampleCount := t.regs.sampleCount, modPhase := t.regs.modPhase, modLevel := t.regs.modLevel
      done := true, errCode := t.regs.errCode } ∧
    (∀ i, t.byte .path i = s.byte .path i ∧ t.byte .payload i = s.byte .payload i) ∧
    (∀ i, (s.buildFits → s.frameTotal ≤ i) → t.byte .frame i = s.byte .frame i) ∧
    (∀ i, (s.buildFits → s.cfg.spb * (s.sampleLimit / s.cfg.spb) ≤ i) → t.byte .sample i = s.byte .sample i) ∧
    s.sameSurround t

/-- 43_control.md R211: `SRESET` gives every register its reset value, with `STATUS` 0 (no `DONE`, so `irq` = 0), and
changes no memory byte. -/
def Obligations.SresetResetsRegistersAndKeepsMemories : Prop :=
  ∀ s : State, ∃ t, exec .sreset s = .next t ∧
    (∀ r, t.readReg r = resetValue r) ∧ t.regs = Regs.reset ∧ t.inFlight = none ∧ t.irq = false ∧
    (∀ m i, t.byte m i = s.byte m i) ∧ s.sameSurround t

/-! ### Reset -/

/-- 70_reset_and_hazards.md R260, R261 and 20_memory.md R80: an assertion of `rst`, when the port is next: every
register at its reset value, `irq` 0, a command in flight abandoned with no completion step, and every memory byte a
fresh unspecified value. The epoch and the free value of the next one are the model's representation of that draw
(assumption 3, DESIGN CHOICE). -/
def Obligations.RstAbandonsAndResets : Prop :=
  ∀ (s : State) (rest : List Input), s.cfg.legal = true → s.portNext → s.inputs = .rst :: rest →
    ∃ t, step s = .next t ∧ (∀ r, t.readReg r = resetValue r) ∧ t.regs = Regs.reset ∧ t.inFlight = none ∧
      t.irq = false ∧ t.inputs = rest ∧ t.cfg = s.cfg ∧ t.reads = s.reads ∧ t.epoch = s.epoch + 1 ∧
      ∀ m i, t.byte m i = Config.unspecifiedByte (s.epoch + 1) m i

/-- 10_state.md R49: the reset values as a host reads them, `irq` 0, no command in flight, and every memory byte
unspecified (the free value that represents it is the model's, assumption 3, DESIGN CHOICE). -/
def Obligations.ResetValuesAsRead : Prop :=
  (∀ r, State.reset.readReg r = resetValue r) ∧ State.reset.irq = false ∧ State.reset.inFlight = none ∧
  ∀ m i, State.reset.byte m i = Config.unspecifiedByte State.reset.epoch m i

/-- 70_reset_and_hazards.md R262: `SRESET` sets the same register state as `rst`; it keeps every memory byte; and a
write of it while busy is dropped. That the dropped write lowers the hold is the model's choice (assumption 5, DESIGN
CHOICE). -/
def Obligations.SresetAgainstRst : Prop :=
  (∀ (s u : State) (rest : List Input), s.cfg.legal = true → s.portNext → s.inputs = .rst :: rest → step s = .next u →
    ∃ t, exec .sreset s = .next t ∧ t.regs = u.regs ∧ t.inFlight = u.inFlight ∧ (∀ r, t.readReg r = u.readReg r) ∧
      ∀ m i, t.byte m i = s.byte m i) ∧
  (∀ (s : State) (c : InFlight) (rest : List Input), s.cfg.legal = true → s.inFlight = some c → c.hold ≠ 0 →
    s.inputs = .write (s.cfg.blockBase + 8) 0xF :: rest →
    step s = .next { s with
      inputs := rest, inFlight := some { word := c.word, hold := c.hold - 1 }
      regs := { s.regs with wrBusy := true } })

/-! ### Registers -/

/-- 10_state.md R26: the fields of `STATUS` as read. -/
def Obligations.StatusReadsItsFields : Prop :=
  ∀ s : State,
    s.statusWord.getLsbD 0 = s.inFlight.isSome ∧ s.statusWord.getLsbD 1 = s.regs.done ∧
    s.statusWord.extractLsb' 2 2 = 0 ∧
    (s.statusWord.extractLsb' 4 4).toNat =
      (match s.regs.errCode with
        | .noError => 0 | .badCmd => 1 | .badLen => 2 | .frameOverflow => 3 | .sampleOverflow => 4) ∧
    s.statusWord.getLsbD 8 = s.regs.wrBusy ∧ s.statusWord.getLsbD 9 = s.regs.badAccess ∧
    s.statusWord.extractLsb' 10 22 = 0

/-- 20_memory.md R62 with the widths of 10_state.md R24 to R44: a RW register reads back the written bits with every
RAZ/WI bit 0, a write to a RO register changes nothing, and no register write but to `STATUS` changes `STATUS`. -/
def Obligations.RegistersReadBackTheirBits : Prop :=
  ∀ (s : State) (v : Word),
    (∀ r mask, rwMask r = some mask → (s.writeReg r v).readReg r = v &&& mask) ∧
    (∀ r, r = .id ∨ r = .sampleCount ∨ r = .crcResult → s.writeReg r v = s) ∧
    (∀ r, r ≠ .status → (s.writeReg r v).statusWord = s.statusWord) ∧
    s.readReg .id = 0x53410100 ∧ s.readReg .cmd = 0

/-- A write to a register at the idle port (20_memory.md R60, R62): the register at the aligned offset takes it, no
memory byte changes, and the port moves on. -/
def Obligations.IdleRegisterWriteReachesItsRegister : Prop :=
  ∀ (s : State) (r : Reg) (k : Nat) (v : Word) (rest : List Input),
    s.cfg.legal = true → s.inFlight = none → r ≠ .cmd → k < 4 →
    s.inputs = .write (s.cfg.blockBase + regOffset r + k) v :: rest →
    step s = .next ({ s with inputs := rest }.writeReg r v) ∧
    (∀ r', r' ≠ r → ({ s with inputs := rest }.writeReg r v).readReg r' = s.readReg r') ∧
    ∀ m i, ({ s with inputs := rest }.writeReg r v).byte m i = s.byte m i

/-- 10_state.md R26 and R22 (`W1C`): a write to `STATUS` at the idle port clears `DONE`, `WR_BUSY`, `BAD_ACCESS` where
the written bit is 1, and changes nothing else. -/
def Obligations.StatusWriteClearsWhereOne : Prop :=
  ∀ (s : State) (v : Word) (rest : List Input),
    s.cfg.legal = true → s.inFlight = none → s.inputs = .write (s.cfg.blockBase + 0xC) v :: rest →
    step s = .next { s with
      inputs := rest
      regs := { s.regs with
        done := if v.getLsbD 1 then false else s.regs.done
        wrBusy := if v.getLsbD 8 then false else s.regs.wrBusy
        badAccess := if v.getLsbD 9 then false else s.regs.badAccess } }

/-- 10_state.md R43: a host write of v to `MOD_PHASE` stores v[15:0] mod `SAMPLE_RATE`, which reads back and is below
`SAMPLE_RATE`. -/
def Obligations.PhaseWriteIsReduced : Prop :=
  ∀ (s : State) (v : Word), s.cfg.legal = true →
    ((s.writeReg .modPhase v).readReg .modPhase).toNat = v.toNat % 65536 % s.cfg.sampleRate ∧
    (s.writeReg .modPhase v).regs.modPhase.toNat < s.cfg.sampleRate

/-- 60_exceptions.md R235: `irq` is `CTRL.IRQ_EN` & `STATUS.DONE` as read; after the completion step of every command
but SRESET it is `IRQ_EN`, and after SRESET it is 0. -/
def Obligations.InterruptFollowsDone : Prop :=
  (∀ s : State, s.irq = (s.ctrlWord.getLsbD 0 && s.statusWord.getLsbD 1)) ∧
  (∀ (i : Instr) (s t : State), i ≠ .sreset → exec i s = .next t → t.irq = s.regs.irqEn) ∧
  (∀ s t : State, exec .sreset s = .next t → t.irq = false)

/-- 10_state.md R48: "No command reads any `STATUS` field": with other `STATUS` fields before it a command leaves the
same state, but for the sticky bits, which it keeps (60_exceptions.md R233). -/
def Obligations.NoCommandReadsStatus : Prop :=
  ∀ (i : Instr) (s t : State) (d w b : Bool) (e : ErrCode), i ≠ .sreset → exec i s = .next t →
    t.regs.wrBusy = s.regs.wrBusy ∧ t.regs.badAccess = s.regs.badAccess ∧
    exec i { s with regs := { s.regs with done := d, errCode := e, wrBusy := w, badAccess := b } } =
      .next { t with regs := { t.regs with wrBusy := w, badAccess := b } }

/-- 70_reset_and_hazards.md R269 ("No rule of the model depends on the number chosen"), 20_memory.md R72: what a
command does depends on nothing of the host port and not on how long it was in flight. -/
def Obligations.CommandsIgnoreTheHostSide : Prop :=
  ∀ (i : Instr) (s t : State) (ins : List Input) (rds : List Word) (dls : List Nat) (n : Nat) (fl : Option InFlight),
    exec i s = .next t →
    t.inFlight = none ∧
    exec i { s with inputs := ins, reads := rds, delays := dls, draws := n, inFlight := fl } =
      .next { t with inputs := ins, reads := rds, delays := dls, draws := n }

/-! ### The host port -/

/-- 20_memory.md R60, R61, R63 and 10_state.md R22: what each offset of the aperture names in a legal build. `w` is
the offset with its bits [1:0] cleared. -/
def Obligations.AddressMapIsTheSpecsTable : Prop :=
  ∀ (c : Config) (off : Nat), c.legal = true → off < 0x20000 →
    let w := off - off % 4
    (∀ r, regOffset r = w → locate c off = .register r) ∧
    (w < 0x60 → ∃ r, regOffset r = w) ∧
    (0x60 ≤ w ∧ w < 0x400 → locate c off = .reserved) ∧
    (0x400 ≤ w ∧ w < 0x438 → locate c off = .window .path (w - 0x400)) ∧
    (0x438 ≤ w ∧ w < 0x800 → locate c off = .reserved) ∧
    (0x800 ≤ w ∧ w < 0x800 + c.payloadCap → locate c off = .window .payload (w - 0x800)) ∧
    (0x800 + c.payloadCap ≤ w ∧ w < 0x1000 → locate c off = .reserved) ∧
    (0x1000 ≤ w ∧ w < 0x1000 + c.frameCap → locate c off = .window .frame (w - 0x1000)) ∧
    (0x1000 + c.frameCap ≤ w ∧ w < 0x10000 → locate c off = .reserved) ∧
    (0x10000 ≤ w ∧ w < 0x10000 + c.sampleCap → locate c off = .window .sample (w - 0x10000)) ∧
    (0x10000 + c.sampleCap ≤ w → locate c off = .reserved)

/-- 20_memory.md R64, R63: a write of `v` to a window word at the idle port sets `M[a+j] <- v[8j+7:8j]` for each lane
below the capacity, and no other byte of any memory, no register and no other field but the list of events changes. `a` is the index of the word's byte 0. -/
def Obligations.WindowWriteStoresItsLanes : Prop :=
  ∀ (s : State) (addr : Nat) (v : Word) (rest : List Input) (m : BlockMem) (a : Nat),
    s.cfg.legal = true → s.inFlight = none → s.inputs = .write addr v :: rest → s.cfg.decodes addr = true →
    locate s.cfg (addr - s.cfg.blockBase) = .window m a →
    ∃ t, step s = .next t ∧
      (∀ j, j < 4 → a + j < s.cfg.cap m → t.byte m (a + j) = v.extractLsb' (8 * j) 8) ∧
      (∀ m' i, (m' ≠ m ∨ i < a ∨ a + 4 ≤ i ∨ s.cfg.cap m ≤ i) → t.byte m' i = s.byte m' i) ∧
      t.regs = s.regs ∧ t.inFlight = none ∧ t.inputs = rest ∧ { s with inputs := rest }.sameSurround t

/-- 20_memory.md R64, R63: a read of a window word at the idle port returns `M[a+j]` in lane j, and 0 in the lanes at
or beyond the capacity; it changes no register and no memory byte. -/
def Obligations.WindowReadReturnsItsLanes : Prop :=
  ∀ (s : State) (addr : Nat) (rest : List Input) (m : BlockMem) (a : Nat),
    s.cfg.legal = true → s.inFlight = none → s.inputs = .read addr :: rest → s.cfg.decodes addr = true →
    locate s.cfg (addr - s.cfg.blockBase) = .window m a →
    ∃ v : Word, step s = .next { s with inputs := rest, reads := v :: s.reads } ∧
      ∀ j, j < 4 → v.extractLsb' (8 * j) 8 = if a + j < s.cfg.cap m then s.byte m (a + j) else 0

/-- 20_memory.md R62, R71: a read of a register, of any of the four offsets of its word, returns its value and has no
other effect at the idle port. -/
def Obligations.IdleRegisterReadReturnsItsValue : Prop :=
  ∀ (s : State) (r : Reg) (k : Nat) (rest : List Input),
    s.cfg.legal = true → s.inFlight = none → k < 4 →
    s.inputs = .read (s.cfg.blockBase + regOffset r + k) :: rest →
    step s = .next { s with inputs := rest, reads := s.readReg r :: s.reads }

/-- 20_memory.md R63: a reserved offset at the idle port reads 0, and a write to it changes nothing but
`STATUS.BAD_ACCESS <- 1`. -/
def Obligations.ReservedOffsetsReadZeroAndFlagWrites : Prop :=
  ∀ (s : State) (addr : Nat) (v : Word) (rest : List Input),
    s.cfg.legal = true → s.inFlight = none → s.cfg.decodes addr = true →
    locate s.cfg (addr - s.cfg.blockBase) = .reserved →
    (s.inputs = .read addr :: rest → step s = .next { s with inputs := rest, reads := 0 :: s.reads }) ∧
    (s.inputs = .write addr v :: rest →
      step s = .next { s with inputs := rest, regs := { s.regs with badAccess := true } })

/-- 20_memory.md R74: a read while a command is in flight returns the value of `ID`, `CTRL` or `STATUS`, and for every
other offset a fresh free value; nothing else of the block changes. The model's own fields do change, by its choice: the
draw of `Config.busyReadWord` moves on (assumption 4) and the hold counts the transfer (assumption 5), DESIGN CHOICE. -/
def Obligations.BusyReadsAreFreeButForThree : Prop :=
  ∀ (s : State) (c : InFlight) (addr : Nat) (rest : List Input),
    s.cfg.legal = true → s.inFlight = some c → c.hold ≠ 0 → s.inputs = .read addr :: rest →
    s.cfg.decodes addr = true →
    let off := addr - s.cfg.blockBase
    let after (v : Word) (n : Nat) : State :=
      { s with inputs := rest, inFlight := some { word := c.word, hold := c.hold - 1 }, reads := v :: s.reads, draws := n }
    (off / 4 = 0 → step s = .next (after 0x53410100 s.draws)) ∧
    (off / 4 = 1 → step s = .next (after s.ctrlWord s.draws)) ∧
    (off / 4 = 3 → step s = .next (after s.statusWord s.draws)) ∧
    (off / 4 ≠ 0 → off / 4 ≠ 1 → off / 4 ≠ 3 →
      step s = .next (after (Config.busyReadWord s.draws) (s.draws + 1)))

/-- 20_memory.md R75: while a command is in flight every host write, to any offset, is dropped: it changes nothing
except `STATUS.WR_BUSY <- 1`. That the command's hold counts the transfer is the model's choice (assumption 5, DESIGN
CHOICE). -/
def Obligations.BusyWritesAreDropped : Prop :=
  ∀ (s : State) (c : InFlight) (addr : Nat) (v : Word) (rest : List Input),
    s.cfg.legal = true → s.inFlight = some c → c.hold ≠ 0 → s.inputs = .write addr v :: rest →
    s.cfg.decodes addr = true →
    step s = .next { s with
      inputs := rest
      inFlight := some { word := c.word, hold := c.hold - 1 }
      regs := { s.regs with wrBusy := true } }

/-! ### Host statements -/

/-- 30_encoding.md R96 (`WRCALL`) with 10_state.md R29, R31: at the idle port its transfers store the characters,
followed by 0x00 bytes up to six, in the callsign's six bytes. -/
def Obligations.WrcallStoresTheCallsign : Prop :=
  ∀ (s : State) (chars : List Byte) (rest : List Input),
    s.cfg.legal = true → s.inFlight = none → chars.length ≤ 6 →
    (s.inputs = HostStmt.expand s.cfg (.wrcall .dst chars) ++ rest →
      ∃ t : State, Host.Core.run Sys2Proof.core 2 s = .next t ∧ t.inputs = rest ∧ t.inFlight = none ∧
        t.dstCall = chars ++ List.replicate (6 - chars.length) 0 ∧ t.srcCall = s.srcCall) ∧
    (s.inputs = HostStmt.expand s.cfg (.wrcall .src chars) ++ rest →
      ∃ t : State, Host.Core.run Sys2Proof.core 2 s = .next t ∧ t.inputs = rest ∧ t.inFlight = none ∧
        t.srcCall = chars ++ List.replicate (6 - chars.length) 0 ∧ t.dstCall = s.dstCall)

/-- 30_encoding.md R96 (`WRBYTES`) with 20_memory.md R64: at the idle port its transfers store the bytes from index
`k` on, the missing bytes of the last group as 0x00, and no other byte of any memory changes; `k` is a multiple of 4
and the list, padded to groups of four, lies inside the capacity. -/
def Obligations.WrbytesStoresTheBytes : Prop :=
  ∀ (s : State) (m : BlockMem) (k : Nat) (bytes : List Byte) (rest : List Input),
    s.cfg.legal = true → s.inFlight = none → k % 4 = 0 → k + 4 * ((bytes.length + 3) / 4) ≤ s.cfg.cap m →
    s.inputs = HostStmt.expand s.cfg (.wrbytes m k bytes) ++ rest →
    ∃ t : State, Host.Core.run Sys2Proof.core ((bytes.length + 3) / 4) s = .next t ∧
      t.inputs = rest ∧ t.inFlight = none ∧ t.regs = s.regs ∧
      (∀ j, j < 4 * ((bytes.length + 3) / 4) → t.byte m (k + j) = bytes.getD j 0) ∧
      (∀ m' i, (m' ≠ m ∨ i < k ∨ k + 4 * ((bytes.length + 3) / 4) ≤ i) → t.byte m' i = s.byte m' i)
end

