-- ==== Sys2Proof/Laws/State.lean ====
section
/-! SUPPORT. One lemma per field of State per update, so that no later proof unfolds a record update. -/

namespace Sys2Proof.Machine

/-! `State.launch` -/

@[simp] theorem State.launch_cfg (s : State) (w : Word) (hold : Nat) : (s.launch w hold).cfg = s.cfg := rfl
@[simp] theorem State.launch_regs (s : State) (w : Word) (hold : Nat) : (s.launch w hold).regs = { s.regs with done := false, errCode := .noError } := rfl
@[simp] theorem State.launch_inFlight (s : State) (w : Word) (hold : Nat) : (s.launch w hold).inFlight = some { word := w, hold := hold } := rfl
@[simp] theorem State.launch_pathMem (s : State) (w : Word) (hold : Nat) : (s.launch w hold).pathMem = s.pathMem := rfl
@[simp] theorem State.launch_payloadMem (s : State) (w : Word) (hold : Nat) : (s.launch w hold).payloadMem = s.payloadMem := rfl
@[simp] theorem State.launch_frameMem (s : State) (w : Word) (hold : Nat) : (s.launch w hold).frameMem = s.frameMem := rfl
@[simp] theorem State.launch_sampleMem (s : State) (w : Word) (hold : Nat) : (s.launch w hold).sampleMem = s.sampleMem := rfl
@[simp] theorem State.launch_inputs (s : State) (w : Word) (hold : Nat) : (s.launch w hold).inputs = s.inputs := rfl
@[simp] theorem State.launch_reads (s : State) (w : Word) (hold : Nat) : (s.launch w hold).reads = s.reads := rfl
@[simp] theorem State.launch_delays (s : State) (w : Word) (hold : Nat) : (s.launch w hold).delays = s.delays := rfl
@[simp] theorem State.launch_draws (s : State) (w : Word) (hold : Nat) : (s.launch w hold).draws = s.draws := rfl
@[simp] theorem State.launch_epoch (s : State) (w : Word) (hold : Nat) : (s.launch w hold).epoch = s.epoch := rfl

/-! `State.complete` -/

@[simp] theorem State.complete_cfg (s : State) (e : ErrCode) : (s.complete e).cfg = s.cfg := rfl
@[simp] theorem State.complete_regs (s : State) (e : ErrCode) : (s.complete e).regs = { s.regs with done := true, errCode := e } := rfl
@[simp] theorem State.complete_inFlight (s : State) (e : ErrCode) : (s.complete e).inFlight = none := rfl
@[simp] theorem State.complete_pathMem (s : State) (e : ErrCode) : (s.complete e).pathMem = s.pathMem := rfl
@[simp] theorem State.complete_payloadMem (s : State) (e : ErrCode) : (s.complete e).payloadMem = s.payloadMem := rfl
@[simp] theorem State.complete_frameMem (s : State) (e : ErrCode) : (s.complete e).frameMem = s.frameMem := rfl
@[simp] theorem State.complete_sampleMem (s : State) (e : ErrCode) : (s.complete e).sampleMem = s.sampleMem := rfl
@[simp] theorem State.complete_inputs (s : State) (e : ErrCode) : (s.complete e).inputs = s.inputs := rfl
@[simp] theorem State.complete_reads (s : State) (e : ErrCode) : (s.complete e).reads = s.reads := rfl
@[simp] theorem State.complete_delays (s : State) (e : ErrCode) : (s.complete e).delays = s.delays := rfl
@[simp] theorem State.complete_draws (s : State) (e : ErrCode) : (s.complete e).draws = s.draws := rfl
@[simp] theorem State.complete_epoch (s : State) (e : ErrCode) : (s.complete e).epoch = s.epoch := rfl

/-! `State.resetRegs` -/

@[simp] theorem State.resetRegs_cfg (s : State) : s.resetRegs.cfg = s.cfg := rfl
@[simp] theorem State.resetRegs_regs (s : State) : s.resetRegs.regs = Regs.reset := rfl
@[simp] theorem State.resetRegs_inFlight (s : State) : s.resetRegs.inFlight = none := rfl
@[simp] theorem State.resetRegs_pathMem (s : State) : s.resetRegs.pathMem = s.pathMem := rfl
@[simp] theorem State.resetRegs_payloadMem (s : State) : s.resetRegs.payloadMem = s.payloadMem := rfl
@[simp] theorem State.resetRegs_frameMem (s : State) : s.resetRegs.frameMem = s.frameMem := rfl
@[simp] theorem State.resetRegs_sampleMem (s : State) : s.resetRegs.sampleMem = s.sampleMem := rfl
@[simp] theorem State.resetRegs_inputs (s : State) : s.resetRegs.inputs = s.inputs := rfl
@[simp] theorem State.resetRegs_reads (s : State) : s.resetRegs.reads = s.reads := rfl
@[simp] theorem State.resetRegs_delays (s : State) : s.resetRegs.delays = s.delays := rfl
@[simp] theorem State.resetRegs_draws (s : State) : s.resetRegs.draws = s.draws := rfl
@[simp] theorem State.resetRegs_epoch (s : State) : s.resetRegs.epoch = s.epoch := rfl

/-! `State.hardReset` -/

@[simp] theorem State.hardReset_cfg (s : State) : s.hardReset.cfg = s.cfg := rfl
@[simp] theorem State.hardReset_regs (s : State) : s.hardReset.regs = Regs.reset := rfl
@[simp] theorem State.hardReset_inFlight (s : State) : s.hardReset.inFlight = none := rfl
@[simp] theorem State.hardReset_pathMem (s : State) : s.hardReset.pathMem = [] := rfl
@[simp] theorem State.hardReset_payloadMem (s : State) : s.hardReset.payloadMem = [] := rfl
@[simp] theorem State.hardReset_frameMem (s : State) : s.hardReset.frameMem = [] := rfl
@[simp] theorem State.hardReset_sampleMem (s : State) : s.hardReset.sampleMem = [] := rfl
@[simp] theorem State.hardReset_inputs (s : State) : s.hardReset.inputs = s.inputs := rfl
@[simp] theorem State.hardReset_reads (s : State) : s.hardReset.reads = s.reads := rfl
@[simp] theorem State.hardReset_delays (s : State) : s.hardReset.delays = s.delays := rfl
@[simp] theorem State.hardReset_draws (s : State) : s.hardReset.draws = s.draws := rfl
@[simp] theorem State.hardReset_epoch (s : State) : s.hardReset.epoch = s.epoch + 1 := rfl

/-! `State.setWrBusy` -/

@[simp] theorem State.setWrBusy_cfg (s : State) : s.setWrBusy.cfg = s.cfg := rfl
@[simp] theorem State.setWrBusy_regs (s : State) : s.setWrBusy.regs = { s.regs with wrBusy := true } := rfl
@[simp] theorem State.setWrBusy_inFlight (s : State) : s.setWrBusy.inFlight = s.inFlight := rfl
@[simp] theorem State.setWrBusy_pathMem (s : State) : s.setWrBusy.pathMem = s.pathMem := rfl
@[simp] theorem State.setWrBusy_payloadMem (s : State) : s.setWrBusy.payloadMem = s.payloadMem := rfl
@[simp] theorem State.setWrBusy_frameMem (s : State) : s.setWrBusy.frameMem = s.frameMem := rfl
@[simp] theorem State.setWrBusy_sampleMem (s : State) : s.setWrBusy.sampleMem = s.sampleMem := rfl
@[simp] theorem State.setWrBusy_inputs (s : State) : s.setWrBusy.inputs = s.inputs := rfl
@[simp] theorem State.setWrBusy_reads (s : State) : s.setWrBusy.reads = s.reads := rfl
@[simp] theorem State.setWrBusy_delays (s : State) : s.setWrBusy.delays = s.delays := rfl
@[simp] theorem State.setWrBusy_draws (s : State) : s.setWrBusy.draws = s.draws := rfl
@[simp] theorem State.setWrBusy_epoch (s : State) : s.setWrBusy.epoch = s.epoch := rfl

/-! `State.setBadAccess` -/

@[simp] theorem State.setBadAccess_cfg (s : State) : s.setBadAccess.cfg = s.cfg := rfl
@[simp] theorem State.setBadAccess_regs (s : State) : s.setBadAccess.regs = { s.regs with badAccess := true } := rfl
@[simp] theorem State.setBadAccess_inFlight (s : State) : s.setBadAccess.inFlight = s.inFlight := rfl
@[simp] theorem State.setBadAccess_pathMem (s : State) : s.setBadAccess.pathMem = s.pathMem := rfl
@[simp] theorem State.setBadAccess_payloadMem (s : State) : s.setBadAccess.payloadMem = s.payloadMem := rfl
@[simp] theorem State.setBadAccess_frameMem (s : State) : s.setBadAccess.frameMem = s.frameMem := rfl
@[simp] theorem State.setBadAccess_sampleMem (s : State) : s.setBadAccess.sampleMem = s.sampleMem := rfl
@[simp] theorem State.setBadAccess_inputs (s : State) : s.setBadAccess.inputs = s.inputs := rfl
@[simp] theorem State.setBadAccess_reads (s : State) : s.setBadAccess.reads = s.reads := rfl
@[simp] theorem State.setBadAccess_delays (s : State) : s.setBadAccess.delays = s.delays := rfl
@[simp] theorem State.setBadAccess_draws (s : State) : s.setBadAccess.draws = s.draws := rfl
@[simp] theorem State.setBadAccess_epoch (s : State) : s.setBadAccess.epoch = s.epoch := rfl

/-! `State.answer` -/

@[simp] theorem State.answer_cfg (s : State) (v : Word) : (s.answer v).cfg = s.cfg := rfl
@[simp] theorem State.answer_regs (s : State) (v : Word) : (s.answer v).regs = s.regs := rfl
@[simp] theorem State.answer_inFlight (s : State) (v : Word) : (s.answer v).inFlight = s.inFlight := rfl
@[simp] theorem State.answer_pathMem (s : State) (v : Word) : (s.answer v).pathMem = s.pathMem := rfl
@[simp] theorem State.answer_payloadMem (s : State) (v : Word) : (s.answer v).payloadMem = s.payloadMem := rfl
@[simp] theorem State.answer_frameMem (s : State) (v : Word) : (s.answer v).frameMem = s.frameMem := rfl
@[simp] theorem State.answer_sampleMem (s : State) (v : Word) : (s.answer v).sampleMem = s.sampleMem := rfl
@[simp] theorem State.answer_inputs (s : State) (v : Word) : (s.answer v).inputs = s.inputs := rfl
@[simp] theorem State.answer_reads (s : State) (v : Word) : (s.answer v).reads = v :: s.reads := rfl
@[simp] theorem State.answer_delays (s : State) (v : Word) : (s.answer v).delays = s.delays := rfl
@[simp] theorem State.answer_draws (s : State) (v : Word) : (s.answer v).draws = s.draws := rfl
@[simp] theorem State.answer_epoch (s : State) (v : Word) : (s.answer v).epoch = s.epoch := rfl

/-! `State.passTransfer` -/

@[simp] theorem State.passTransfer_cfg (s : State) : s.passTransfer.cfg = s.cfg := rfl
@[simp] theorem State.passTransfer_regs (s : State) : s.passTransfer.regs = s.regs := rfl
@[simp] theorem State.passTransfer_inFlight (s : State) : s.passTransfer.inFlight = s.inFlight.map (fun c => { c with hold := c.hold - 1 }) := rfl
@[simp] theorem State.passTransfer_pathMem (s : State) : s.passTransfer.pathMem = s.pathMem := rfl
@[simp] theorem State.passTransfer_payloadMem (s : State) : s.passTransfer.payloadMem = s.payloadMem := rfl
@[simp] theorem State.passTransfer_frameMem (s : State) : s.passTransfer.frameMem = s.frameMem := rfl
@[simp] theorem State.passTransfer_sampleMem (s : State) : s.passTransfer.sampleMem = s.sampleMem := rfl
@[simp] theorem State.passTransfer_inputs (s : State) : s.passTransfer.inputs = s.inputs := rfl
@[simp] theorem State.passTransfer_reads (s : State) : s.passTransfer.reads = s.reads := rfl
@[simp] theorem State.passTransfer_delays (s : State) : s.passTransfer.delays = s.delays := rfl
@[simp] theorem State.passTransfer_draws (s : State) : s.passTransfer.draws = s.draws := rfl
@[simp] theorem State.passTransfer_epoch (s : State) : s.passTransfer.epoch = s.epoch := rfl

/-! `State.setFrameLen` -/

@[simp] theorem State.setFrameLen_cfg (s : State) (v : BitVec 16) : (s.setFrameLen v).cfg = s.cfg := rfl
@[simp] theorem State.setFrameLen_regs (s : State) (v : BitVec 16) : (s.setFrameLen v).regs = { s.regs with frameLen := v } := rfl
@[simp] theorem State.setFrameLen_inFlight (s : State) (v : BitVec 16) : (s.setFrameLen v).inFlight = s.inFlight := rfl
@[simp] theorem State.setFrameLen_pathMem (s : State) (v : BitVec 16) : (s.setFrameLen v).pathMem = s.pathMem := rfl
@[simp] theorem State.setFrameLen_payloadMem (s : State) (v : BitVec 16) : (s.setFrameLen v).payloadMem = s.payloadMem := rfl
@[simp] theorem State.setFrameLen_frameMem (s : State) (v : BitVec 16) : (s.setFrameLen v).frameMem = s.frameMem := rfl
@[simp] theorem State.setFrameLen_sampleMem (s : State) (v : BitVec 16) : (s.setFrameLen v).sampleMem = s.sampleMem := rfl
@[simp] theorem State.setFrameLen_inputs (s : State) (v : BitVec 16) : (s.setFrameLen v).inputs = s.inputs := rfl
@[simp] theorem State.setFrameLen_reads (s : State) (v : BitVec 16) : (s.setFrameLen v).reads = s.reads := rfl
@[simp] theorem State.setFrameLen_delays (s : State) (v : BitVec 16) : (s.setFrameLen v).delays = s.delays := rfl
@[simp] theorem State.setFrameLen_draws (s : State) (v : BitVec 16) : (s.setFrameLen v).draws = s.draws := rfl
@[simp] theorem State.setFrameLen_epoch (s : State) (v : BitVec 16) : (s.setFrameLen v).epoch = s.epoch := rfl

/-! `State.clearSampleCount` -/

@[simp] theorem State.clearSampleCount_cfg (s : State) : s.clearSampleCount.cfg = s.cfg := rfl
@[simp] theorem State.clearSampleCount_regs (s : State) : s.clearSampleCount.regs = { s.regs with sampleCount := 0 } := rfl
@[simp] theorem State.clearSampleCount_inFlight (s : State) : s.clearSampleCount.inFlight = s.inFlight := rfl
@[simp] theorem State.clearSampleCount_pathMem (s : State) : s.clearSampleCount.pathMem = s.pathMem := rfl
@[simp] theorem State.clearSampleCount_payloadMem (s : State) : s.clearSampleCount.payloadMem = s.payloadMem := rfl
@[simp] theorem State.clearSampleCount_frameMem (s : State) : s.clearSampleCount.frameMem = s.frameMem := rfl
@[simp] theorem State.clearSampleCount_sampleMem (s : State) : s.clearSampleCount.sampleMem = s.sampleMem := rfl
@[simp] theorem State.clearSampleCount_inputs (s : State) : s.clearSampleCount.inputs = s.inputs := rfl
@[simp] theorem State.clearSampleCount_reads (s : State) : s.clearSampleCount.reads = s.reads := rfl
@[simp] theorem State.clearSampleCount_delays (s : State) : s.clearSampleCount.delays = s.delays := rfl
@[simp] theorem State.clearSampleCount_draws (s : State) : s.clearSampleCount.draws = s.draws := rfl
@[simp] theorem State.clearSampleCount_epoch (s : State) : s.clearSampleCount.epoch = s.epoch := rfl

/-! `accept` -/

@[simp] theorem accept_cfg (s : State) (v : Word) : (accept v s).cfg = s.cfg := rfl
@[simp] theorem accept_regs (s : State) (v : Word) : (accept v s).regs = { s.regs with done := false, errCode := .noError } := rfl
@[simp] theorem accept_inFlight (s : State) (v : Word) : (accept v s).inFlight = some { word := v, hold := nextHold s } := rfl
@[simp] theorem accept_pathMem (s : State) (v : Word) : (accept v s).pathMem = s.pathMem := rfl
@[simp] theorem accept_payloadMem (s : State) (v : Word) : (accept v s).payloadMem = s.payloadMem := rfl
@[simp] theorem accept_frameMem (s : State) (v : Word) : (accept v s).frameMem = s.frameMem := rfl
@[simp] theorem accept_sampleMem (s : State) (v : Word) : (accept v s).sampleMem = s.sampleMem := rfl
@[simp] theorem accept_inputs (s : State) (v : Word) : (accept v s).inputs = s.inputs := rfl
@[simp] theorem accept_reads (s : State) (v : Word) : (accept v s).reads = s.reads := rfl
@[simp] theorem accept_delays (s : State) (v : Word) : (accept v s).delays = s.delays.tail := rfl
@[simp] theorem accept_draws (s : State) (v : Word) : (accept v s).draws = s.draws := rfl
@[simp] theorem accept_epoch (s : State) (v : Word) : (accept v s).epoch = s.epoch := rfl

/-! `State.setMem` and `State.writeBytes`: one block memory changes, nothing else. -/

@[simp] theorem State.setMem_cfg (s : State) (m : BlockMem) (x : Memory) : (s.setMem m x).cfg = s.cfg := by
  cases m <;> rfl
@[simp] theorem State.setMem_regs (s : State) (m : BlockMem) (x : Memory) : (s.setMem m x).regs = s.regs := by
  cases m <;> rfl
@[simp] theorem State.setMem_inFlight (s : State) (m : BlockMem) (x : Memory) : (s.setMem m x).inFlight = s.inFlight := by
  cases m <;> rfl
@[simp] theorem State.setMem_inputs (s : State) (m : BlockMem) (x : Memory) : (s.setMem m x).inputs = s.inputs := by
  cases m <;> rfl
@[simp] theorem State.setMem_reads (s : State) (m : BlockMem) (x : Memory) : (s.setMem m x).reads = s.reads := by
  cases m <;> rfl
@[simp] theorem State.setMem_delays (s : State) (m : BlockMem) (x : Memory) : (s.setMem m x).delays = s.delays := by
  cases m <;> rfl
@[simp] theorem State.setMem_draws (s : State) (m : BlockMem) (x : Memory) : (s.setMem m x).draws = s.draws := by
  cases m <;> rfl
@[simp] theorem State.setMem_epoch (s : State) (m : BlockMem) (x : Memory) : (s.setMem m x).epoch = s.epoch := by
  cases m <;> rfl
@[simp] theorem State.writeBytes_cfg (s : State) (m : BlockMem) (i : Nat) (bs : List Byte) :
    (s.writeBytes m i bs).cfg = s.cfg := by
  simp [State.writeBytes]
@[simp] theorem State.writeBytes_regs (s : State) (m : BlockMem) (i : Nat) (bs : List Byte) :
    (s.writeBytes m i bs).regs = s.regs := by
  simp [State.writeBytes]
@[simp] theorem State.writeBytes_inFlight (s : State) (m : BlockMem) (i : Nat) (bs : List Byte) :
    (s.writeBytes m i bs).inFlight = s.inFlight := by
  simp [State.writeBytes]
@[simp] theorem State.writeBytes_inputs (s : State) (m : BlockMem) (i : Nat) (bs : List Byte) :
    (s.writeBytes m i bs).inputs = s.inputs := by
  simp [State.writeBytes]
@[simp] theorem State.writeBytes_reads (s : State) (m : BlockMem) (i : Nat) (bs : List Byte) :
    (s.writeBytes m i bs).reads = s.reads := by
  simp [State.writeBytes]
@[simp] theorem State.writeBytes_delays (s : State) (m : BlockMem) (i : Nat) (bs : List Byte) :
    (s.writeBytes m i bs).delays = s.delays := by
  simp [State.writeBytes]
@[simp] theorem State.writeBytes_draws (s : State) (m : BlockMem) (i : Nat) (bs : List Byte) :
    (s.writeBytes m i bs).draws = s.draws := by
  simp [State.writeBytes]
@[simp] theorem State.writeBytes_epoch (s : State) (m : BlockMem) (i : Nat) (bs : List Byte) :
    (s.writeBytes m i bs).epoch = s.epoch := by
  simp [State.writeBytes]

@[simp] theorem State.mem_setMem_self (s : State) (m : BlockMem) (x : Memory) : (s.setMem m x).mem m = x := by
  cases m <;> rfl

theorem State.mem_setMem_ne (s : State) (m m' : BlockMem) (x : Memory) (h : m' ≠ m) :
    (s.setMem m x).mem m' = s.mem m' := by
  cases m <;> cases m' <;> first | rfl | exact absurd rfl h

@[simp] theorem State.mem_writeBytes_self (s : State) (m : BlockMem) (i : Nat) (bs : List Byte) :
    (s.writeBytes m i bs).mem m = Memory.write (s.mem m) i bs := by
  simp [State.writeBytes]

theorem State.mem_writeBytes_ne (s : State) (m m' : BlockMem) (i : Nat) (bs : List Byte) (h : m' ≠ m) :
    (s.writeBytes m i bs).mem m' = s.mem m' := by
  simp [State.writeBytes, State.mem_setMem_ne _ _ _ _ h]

/-! Updates that touch no memory leave every memory and every byte alone. -/

@[simp] theorem State.launch_mem (s : State) (w : Word) (hold : Nat) (m : BlockMem) : (s.launch w hold).mem m = s.mem m := by
  cases m <;> rfl
@[simp] theorem State.launch_byte (s : State) (w : Word) (hold : Nat) (m : BlockMem) (i : Nat) : (s.launch w hold).byte m i = s.byte m i := by
  simp [State.byte]
@[simp] theorem State.complete_mem (s : State) (e : ErrCode) (m : BlockMem) : (s.complete e).mem m = s.mem m := by
  cases m <;> rfl
@[simp] theorem State.complete_byte (s : State) (e : ErrCode) (m : BlockMem) (i : Nat) : (s.complete e).byte m i = s.byte m i := by
  simp [State.byte]
@[simp] theorem State.resetRegs_mem (s : State) (m : BlockMem) : s.resetRegs.mem m = s.mem m := by
  cases m <;> rfl
@[simp] theorem State.resetRegs_byte (s : State) (m : BlockMem) (i : Nat) : s.resetRegs.byte m i = s.byte m i := by
  simp [State.byte]
@[simp] theorem State.setWrBusy_mem (s : State) (m : BlockMem) : s.setWrBusy.mem m = s.mem m := by
  cases m <;> rfl
@[simp] theorem State.setWrBusy_byte (s : State) (m : BlockMem) (i : Nat) : s.setWrBusy.byte m i = s.byte m i := by
  simp [State.byte]
@[simp] theorem State.setBadAccess_mem (s : State) (m : BlockMem) : s.setBadAccess.mem m = s.mem m := by
  cases m <;> rfl
@[simp] theorem State.setBadAccess_byte (s : State) (m : BlockMem) (i : Nat) : s.setBadAccess.byte m i = s.byte m i := by
  simp [State.byte]
@[simp] theorem State.answer_mem (s : State) (v : Word) (m : BlockMem) : (s.answer v).mem m = s.mem m := by
  cases m <;> rfl
@[simp] theorem State.answer_byte (s : State) (v : Word) (m : BlockMem) (i : Nat) : (s.answer v).byte m i = s.byte m i := by
  simp [State.byte]
@[simp] theorem State.passTransfer_mem (s : State) (m : BlockMem) : s.passTransfer.mem m = s.mem m := by
  cases m <;> rfl
@[simp] theorem State.passTransfer_byte (s : State) (m : BlockMem) (i : Nat) : s.passTransfer.byte m i = s.byte m i := by
  simp [State.byte]
@[simp] theorem State.setFrameLen_mem (s : State) (v : BitVec 16) (m : BlockMem) : (s.setFrameLen v).mem m = s.mem m := by
  cases m <;> rfl
@[simp] theorem State.setFrameLen_byte (s : State) (v : BitVec 16) (m : BlockMem) (i : Nat) : (s.setFrameLen v).byte m i = s.byte m i := by
  simp [State.byte]
@[simp] theorem State.clearSampleCount_mem (s : State) (m : BlockMem) : s.clearSampleCount.mem m = s.mem m := by
  cases m <;> rfl
@[simp] theorem State.clearSampleCount_byte (s : State) (m : BlockMem) (i : Nat) : s.clearSampleCount.byte m i = s.byte m i := by
  simp [State.byte]
@[simp] theorem accept_mem (s : State) (v : Word) (m : BlockMem) : (accept v s).mem m = s.mem m := by
  cases m <;> rfl
@[simp] theorem accept_byte (s : State) (v : Word) (m : BlockMem) (i : Nat) : (accept v s).byte m i = s.byte m i := by
  simp [State.byte]

@[simp] theorem State.mem_withRegs (s : State) (r : Regs) (m : BlockMem) : ({ s with regs := r } : State).mem m = s.mem m := by
  cases m <;> rfl

@[simp] theorem State.byte_withRegs (s : State) (r : Regs) (m : BlockMem) (i : Nat) :
    ({ s with regs := r } : State).byte m i = s.byte m i := by
  simp [State.byte]

theorem State.hardReset_byte (s : State) (m : BlockMem) (i : Nat) :
    s.hardReset.byte m i = Config.unspecifiedByte (s.epoch + 1) m i := by
  cases m <;> rfl

theorem State.byte_congr {s t : State} (m : BlockMem) (hm : t.mem m = s.mem m) (he : t.epoch = s.epoch) (i : Nat) :
    t.byte m i = s.byte m i := by
  simp [State.byte, hm, he]

@[simp] theorem State.readBytes_length (s : State) (m : BlockMem) (i n : Nat) : (s.readBytes m i n).length = n := by
  induction n generalizing i with
  | zero => rfl
  | succ n ih => simp [State.readBytes, ih]

theorem State.readBytes_eq_map (s : State) (m : BlockMem) (i n : Nat) :
    s.readBytes m i n = (List.range' i n).map (s.byte m) := by
  induction n generalizing i with
  | zero => rfl
  | succ n ih => simp [State.readBytes, ih, List.range'_succ]

theorem State.readBytes_congr {s t : State} (m : BlockMem) (h : ∀ i, t.byte m i = s.byte m i) (i n : Nat) :
    t.readBytes m i n = s.readBytes m i n := by
  simp [State.readBytes_eq_map, funext h]

theorem State.busy_eq (s : State) : s.busy = s.inFlight.isSome := rfl

end Sys2Proof.Machine
end

