-- ==== Sys2Proof/Laws/Memory.lean ====
section
/-! SUPPORT. The laws of a block memory: what a read after a write gives, and that a write keeps the canonical
form. -/

namespace Sys2Proof.Machine

@[simp] theorem Memory.get?_nil (i : Nat) : Memory.get? [] i = none := rfl

theorem Memory.get?_cons (c : Host.Cell) (m : Memory) (i : Nat) :
    Memory.get? (c :: m) i = if c.1 = i then some c.2 else Memory.get? m i := rfl

theorem Memory.get?_append (m₁ m₂ : Memory) (i : Nat) :
    Memory.get? (m₁ ++ m₂) i = (Memory.get? m₁ i).or (Memory.get? m₂ i) := by
  induction m₁ with
  | nil => simp
  | cons c m ih =>
    rw [List.cons_append, Memory.get?_cons, Memory.get?_cons]
    split <;> simp [ih]

theorem Memory.get?_eq_none_of_forall {m : Memory} {i : Nat} (h : ∀ c ∈ m, c.1 ≠ i) : Memory.get? m i = none := by
  induction m with
  | nil => rfl
  | cons c m ih =>
    rw [Memory.get?_cons, if_neg (h c (by simp))]
    exact ih fun c' hc' => h c' (by simp [hc'])

theorem Memory.get?_filter (m : Memory) (p : Nat → Bool) (i : Nat) :
    Memory.get? (m.filter fun c => p c.1) i = if p i then Memory.get? m i else none := by
  induction m with
  | nil => simp
  | cons c m ih =>
    by_cases hc : p c.1 <;> by_cases hi : c.1 = i
    · subst hi; simp [hc, Memory.get?_cons]
    · simp [hc, hi, Memory.get?_cons, ih]
    · subst hi; simp [hc, ih]
    · simp [hc, hi, Memory.get?_cons, ih]

theorem Memory.get?_cells (a : Nat) (bs : List Byte) (i : Nat) :
    Memory.get? (Memory.cells a bs) i = if a ≤ i then bs[i - a]? else none := by
  induction bs generalizing a with
  | nil => simp [Memory.cells]
  | cons b bs ih =>
    rw [Memory.cells, Memory.get?_cons, ih]
    rcases Nat.lt_trichotomy a i with h | h | h
    · obtain ⟨k, rfl⟩ : ∃ k, i = a + 1 + k := ⟨i - (a + 1), by omega⟩
      have h1 : a + 1 + k - a = k + 1 := by omega
      have h2 : a + 1 + k - (a + 1) = k := by omega
      simp [h1, h2, show a ≠ a + 1 + k by omega, show a ≤ a + 1 + k by omega]
    · subst h; simp
    · simp [show ¬ a = i by omega, show ¬ a ≤ i by omega, show ¬ a + 1 ≤ i by omega]

/-- A read after a write: the stored byte inside the written range, the old value outside. -/
theorem Memory.get?_write (m : Memory) (a : Nat) (bs : List Byte) (i : Nat) :
    Memory.get? (Memory.write m a bs) i = if a ≤ i ∧ i < a + bs.length then bs[i - a]? else Memory.get? m i := by
  rw [Memory.write, Memory.get?_append, Memory.get?_append, Memory.get?_filter m (fun k => decide (k < a)),
    Memory.get?_filter m (fun k => decide (a + bs.length ≤ k)), Memory.get?_cells]
  by_cases h1 : i < a
  · simp [h1, show ¬ a ≤ i by omega, show ¬ a + bs.length ≤ i by omega]
  · by_cases h2 : a + bs.length ≤ i
    · simp [h1, h2, show ¬ i < a + bs.length by omega, show a ≤ i by omega, show bs.length ≤ i - a by omega]
    · have h3 : i - a < bs.length := by omega
      simp [h1, h2, show a ≤ i by omega, show i < a + bs.length by omega, List.getElem?_eq_getElem h3]

theorem Memory.mem_cells {a : Nat} {bs : List Byte} {c : Host.Cell} (h : c ∈ Memory.cells a bs) :
    a ≤ c.1 ∧ c.1 < a + bs.length := by
  induction bs generalizing a with
  | nil => simp [Memory.cells] at h
  | cons b bs ih =>
    rcases List.mem_cons.1 h with rfl | h
    · simp
    · have := ih h
      simp only [List.length_cons]
      omega

theorem Memory.cells_rising (a : Nat) (bs : List Byte) :
    (Memory.cells a bs).Pairwise (fun x y => x.1 < y.1) := by
  induction bs generalizing a with
  | nil => exact List.Pairwise.nil
  | cons b bs ih =>
    refine List.Pairwise.cons (fun c hc => ?_) (ih (a + 1))
    have := Memory.mem_cells hc
    show a < c.1
    omega

/-- A write inside the capacity keeps the canonical form. -/
theorem Memory.write_wf {cap : Nat} {m : Memory} (h : Memory.wf cap m) (a : Nat) (bs : List Byte)
    (hb : a + bs.length ≤ cap) : Memory.wf cap (Memory.write m a bs) := by
  refine ⟨?_, ?_⟩
  · rw [Memory.write, List.append_assoc]
    refine List.pairwise_append.2 ⟨h.1.filter _, List.pairwise_append.2
      ⟨Memory.cells_rising a bs, h.1.filter _, ?_⟩, ?_⟩
    · intro x hx y hy
      have hx := Memory.mem_cells hx
      simp only [List.mem_filter, decide_eq_true_eq] at hy
      omega
    · intro x hx y hy
      simp only [List.mem_filter, decide_eq_true_eq] at hx
      rcases List.mem_append.1 hy with hy | hy
      · have := Memory.mem_cells hy; omega
      · simp only [List.mem_filter, decide_eq_true_eq] at hy; omega
  · intro c hc
    simp only [Memory.write, List.mem_append, List.mem_filter, decide_eq_true_eq] at hc
    rcases hc with (hc | hc) | hc
    · exact h.2 c hc.1
    · have := Memory.mem_cells hc; omega
    · exact h.2 c hc.1

theorem Memory.nil_wf (cap : Nat) : Memory.wf cap [] := ⟨List.Pairwise.nil, by simp⟩

/-- Equal contents in canonical form are equal data. -/
theorem Memory.ext_of_get? {cap cap' : Nat} {m m' : Memory} (h : Memory.wf cap m) (h' : Memory.wf cap' m')
    (e : ∀ i, Memory.get? m i = Memory.get? m' i) : m = m' := by
  obtain ⟨h, -⟩ := h
  obtain ⟨h', -⟩ := h'
  induction m generalizing m' with
  | nil =>
    cases m' with
    | nil => rfl
    | cons c m' => simpa [Memory.get?_cons] using e c.1
  | cons c m ih =>
    cases m' with
    | nil => simpa [Memory.get?_cons] using e c.1
    | cons c' m' =>
      have hc := List.pairwise_cons.1 h
      have hc' := List.pairwise_cons.1 h'
      have key : c.1 = c'.1 := by
        rcases Nat.lt_trichotomy c.1 c'.1 with hlt | heq | hgt
        · have := e c.1
          rw [Memory.get?_cons, if_pos rfl, Memory.get?_cons, if_neg (by omega),
            Memory.get?_eq_none_of_forall (fun d hd => by have := hc'.1 d hd; omega)] at this
          cases this
        · exact heq
        · have := e c'.1
          rw [Memory.get?_cons, if_neg (by omega), Memory.get?_cons, if_pos rfl,
            Memory.get?_eq_none_of_forall (fun d hd => by have := hc.1 d hd; omega)] at this
          cases this
      have val : c.2 = c'.2 := by
        have := e c.1
        rw [Memory.get?_cons, if_pos rfl, Memory.get?_cons, if_pos key.symm] at this
        exact Option.some.inj this
      rw [Prod.ext key val]
      congr 1
      refine ih (fun i => ?_) hc.2 hc'.2
      by_cases hi : c.1 = i
      · rw [Memory.get?_eq_none_of_forall (fun d hd => by have := hc.1 d hd; omega),
          Memory.get?_eq_none_of_forall (fun d hd => by have := hc'.1 d hd; omega)]
      · have := e i
        rwa [Memory.get?_cons, if_neg hi, Memory.get?_cons, if_neg (by omega)] at this

/-- The byte read after a write to the same memory. -/
theorem State.byte_writeBytes (s : State) (m : BlockMem) (a : Nat) (bs : List Byte) (i : Nat) :
    (s.writeBytes m a bs).byte m i = if h : a ≤ i ∧ i < a + bs.length then bs[i - a]'(by omega) else s.byte m i := by
  unfold State.byte
  rw [State.mem_writeBytes_self, Memory.get?_write]
  by_cases h : a ≤ i ∧ i < a + bs.length
  · rw [if_pos h, dif_pos h, List.getElem?_eq_getElem (by omega)]
  · simp [h]

/-- A write to one memory leaves the bytes of every other alone. -/
theorem State.byte_writeBytes_ne (s : State) (m m' : BlockMem) (a : Nat) (bs : List Byte) (h : m' ≠ m) (i : Nat) :
    (s.writeBytes m a bs).byte m' i = s.byte m' i :=
  State.byte_congr m' (State.mem_writeBytes_ne s m m' a bs h) (by simp) i

/-- Outside the written range nothing changes. -/
theorem State.byte_writeBytes_outside (s : State) (m : BlockMem) (a : Nat) (bs : List Byte) (i : Nat)
    (h : i < a ∨ a + bs.length ≤ i) : (s.writeBytes m a bs).byte m i = s.byte m i := by
  rw [State.byte_writeBytes, dif_neg (by omega)]

end Sys2Proof.Machine
end

