-- ==== Sys2Proof/Laws/Afsk.lean ====
section
/-! SUPPORT. What one cell, one bit and a run of the modulator do, in terms of the line code and the tones of
Safety.lean, and what the body of MODULATE can do. -/

namespace Sys2Proof.Machine

/-! ### Legal builds -/

/-- What a legal build bounds (00_scope.md R7, R8). -/
theorem legal_bounds {c : Config} (h : c.legal = true) :
    c.sampleRate % 1200 = 0 ∧ 1200 ≤ c.sampleRate ∧ c.sampleRate ≤ 64800 ∧ 1 ≤ c.payloadCap ∧ c.payloadCap ≤ 1024 ∧
    1 ≤ c.frameCap ∧ c.frameCap ≤ 4096 ∧ 1 ≤ c.sampleCap ∧ c.sampleCap ≤ 65536 := by
  simp only [Config.legal, Bool.and_eq_true, beq_iff_eq, decide_eq_true_eq, bitRate] at h
  omega

/-- A cell of a legal build has at least one sample (00_scope.md R7). -/
theorem spb_pos {c : Config} (h : c.legal = true) : 0 < c.spb := by
  have := legal_bounds h
  simp only [Config.spb, bitRate]
  omega

/-! ### The sample function depends on the phase modulo the rate -/

theorem sine_mod (rate p : Nat) : sine rate (p % rate) = sine rate p := by
  simp [sine, sampleFraction, quarterPhase, sinePositive]

/-! ### One cell -/

theorem toneHz_eq (l : Bool) : toneHz l = if l then 1200 else 2200 := rfl

@[simp] theorem Mod.sampleStep_level (e : ModEnv) (m : Mod) : (m.sampleStep e).level = m.level := rfl
@[simp] theorem Mod.sampleStep_ones (e : ModEnv) (m : Mod) : (m.sampleStep e).ones = m.ones := rfl
@[simp] theorem Mod.sampleStep_n (e : ModEnv) (m : Mod) : (m.sampleStep e).n = m.n + 1 := rfl

@[simp] theorem Mod.emit_level (e : ModEnv) (k : Nat) (m : Mod) : (Mod.emit e k m).level = m.level := by
  induction k generalizing m with
  | zero => rfl
  | succ k ih => simp [Mod.emit, ih]

@[simp] theorem Mod.emit_ones (e : ModEnv) (k : Nat) (m : Mod) : (Mod.emit e k m).ones = m.ones := by
  induction k generalizing m with
  | zero => rfl
  | succ k ih => simp [Mod.emit, ih]

@[simp] theorem Mod.emit_n (e : ModEnv) (k : Nat) (m : Mod) : (Mod.emit e k m).n = m.n + k := by
  induction k generalizing m with
  | zero => rfl
  | succ k ih => simp [Mod.emit, ih]; omega

/-- The phase after k samples (42_afsk.md R170). -/
theorem Mod.emit_phase (e : ModEnv) (k : Nat) (m : Mod) :
    (Mod.emit e k m).phase % e.rate = (m.phase + k * toneHz m.level) % e.rate := by
  induction k generalizing m with
  | zero => simp [Mod.emit]
  | succ k ih =>
    rw [Mod.emit, ih]
    simp only [Mod.sampleStep, Nat.mod_add_mod, Nat.add_assoc]
    congr 2
    ring

theorem Mod.emit_phase_reduced (e : ModEnv) (k : Nat) (m : Mod) (h : m.phase % e.rate = m.phase) :
    (Mod.emit e k m).phase % e.rate = (Mod.emit e k m).phase := by
  induction k generalizing m with
  | zero => exact h
  | succ k ih => exact ih _ (Nat.mod_mod _ _)

/-- The phase after at least one sample (42_afsk.md R170). -/
theorem Mod.emit_phase_eq (e : ModEnv) (k : Nat) (m : Mod) (hk : 0 < k) :
    (Mod.emit e k m).phase = (m.phase + k * toneHz m.level) % e.rate := by
  rw [← Mod.emit_phase]
  cases k with
  | zero => omega
  | succ k => exact (Mod.emit_phase_reduced e k _ (Nat.mod_mod _ _)).symm

/-- The samples of k steps, newest first (42_afsk.md R173). -/
theorem Mod.emit_out (e : ModEnv) (k : Nat) (m : Mod) :
    (Mod.emit e k m).out = (cellTones e.rate k m.phase m.level).reverse ++ m.out := by
  induction k generalizing m with
  | zero => rfl
  | succ k ih =>
    rw [Mod.emit, ih]
    simp only [cellTones, ← toneHz_eq, Mod.sampleStep, List.range_succ_eq_map, List.map_cons, List.map_map,
      List.reverse_cons, List.append_assoc, List.cons_append, List.nil_append]
    congr 1
    · congr 1
      refine List.map_congr_left fun j _ => ?_
      show sine e.rate ((m.phase + toneHz m.level) % e.rate + j * toneHz m.level) =
        sine e.rate (m.phase + (j + 1) * toneHz m.level)
      rw [← sine_mod, Nat.mod_add_mod, sine_mod]
      congr 1
      ring
    · simp

/-! ### Runs over tagged bits -/

/-- A run over the bits of Safety.lean's `taggedBits`. -/
def Mod.run (e : ModEnv) : List (Bool × Bool) → Mod → Except Mod Mod
  | [], m => .ok m
  | (inreg, b) :: rest, m =>
    match m.bit e inreg b with
    | .error m' => .error m'
    | .ok m' => Mod.run e rest m'

theorem Mod.run_append (e : ModEnv) (xs ys : List (Bool × Bool)) (m : Mod) :
    Mod.run e (xs ++ ys) m =
      match Mod.run e xs m with
      | .error m' => .error m'
      | .ok m' => Mod.run e ys m' := by
  induction xs generalizing m with
  | nil => rfl
  | cons x xs ih =>
    obtain ⟨inreg, b⟩ := x
    simp only [List.cons_append, Mod.run]
    cases m.bit e inreg b with
    | error m' => rfl
    | ok m' => exact ih m'

theorem Mod.bits_eq_run (e : ModEnv) (inreg : Bool) (bs : List Bool) (m : Mod) :
    Mod.bits e inreg bs m = Mod.run e (bs.map fun b => (inreg, b)) m := by
  induction bs generalizing m with
  | nil => rfl
  | cons b bs ih =>
    simp only [Mod.bits, List.map_cons, Mod.run]
    cases m.bit e inreg b with
    | error m' => rfl
    | ok m' => exact ih m'

theorem inRegion_eq (lo hi : Int) (i : Nat) :
    inRegion lo hi i = decide (lo < (i : Int) ∧ (i : Int) < hi) := by
  simp [inRegion]

theorem Mod.bytes_eq_run (e : ModEnv) (lo hi : Int) (i : Nat) (bs : List Byte) (m : Mod) :
    Mod.bytes e lo hi i bs m = Mod.run e (taggedBits lo hi i bs) m := by
  induction bs generalizing i m with
  | nil => rfl
  | cons b bs ih =>
    have h : (bitsOf b).map (fun b => (inRegion lo hi i, b)) =
        (List.range 8).map (fun j => (decide (lo < (i : Int) ∧ (i : Int) < hi), b.getLsbD j)) := by
      rw [bitsOf, List.map_map, inRegion_eq]; rfl
    rw [Mod.bytes, Mod.bits_eq_run, taggedBits, Mod.run_append, h]
    cases Mod.run e _ m with
    | error m' => rfl
    | ok m' => exact ih (i + 1) m'

/-- A run of cells the modulator has sent, from `m`: all of `cells`. -/
def Mod.sent (e : ModEnv) (m : Mod) (cells : List Bool) (m' : Mod) : Prop :=
  m'.n = m.n + e.spb * cells.length ∧
  m'.out = (tones e.rate e.spb m.phase cells).reverse ++ m.out ∧
  m'.phase = tonesPhase e.rate e.spb m.phase cells

theorem tones_append (rate spb p : Nat) (xs ys : List Bool) :
    tones rate spb p (xs ++ ys) = tones rate spb p xs ++ tones rate spb (tonesPhase rate spb p xs) ys := by
  induction xs generalizing p with
  | nil => rfl
  | cons x xs ih => simp [tones, tonesPhase, ih, List.append_assoc]

theorem tonesPhase_append (rate spb p : Nat) (xs ys : List Bool) :
    tonesPhase rate spb p (xs ++ ys) = tonesPhase rate spb (tonesPhase rate spb p xs) ys := by
  induction xs generalizing p with
  | nil => rfl
  | cons x xs ih => simp [tonesPhase, ih]

@[simp] theorem cellTones_length (rate spb p : Nat) (l : Bool) : (cellTones rate spb p l).length = spb := by
  simp [cellTones]

@[simp] theorem tones_length (rate spb p : Nat) (cells : List Bool) :
    (tones rate spb p cells).length = spb * cells.length := by
  induction cells generalizing p with
  | nil => rfl
  | cons x xs ih => simp [tones, ih, Nat.mul_add]; omega

theorem tonesPhase_lt (rate spb p : Nat) (cells : List Bool) (hr : 0 < rate) (hp : p < rate) :
    tonesPhase rate spb p cells < rate := by
  induction cells generalizing p with
  | nil => exact hp
  | cons x xs ih => exact ih _ (Nat.mod_lt _ hr)

theorem Mod.sent_nil (e : ModEnv) (m m' : Mod) (hn : m'.n = m.n) (ho : m'.out = m.out) (hp : m'.phase = m.phase) :
    Mod.sent e m [] m' := ⟨by simpa using hn, by simpa [tones] using ho, by simpa [tonesPhase] using hp⟩

theorem Mod.sent_append {e : ModEnv} {m m' m'' : Mod} {xs ys : List Bool} (h : Mod.sent e m xs m')
    (h' : Mod.sent e m' ys m'') : Mod.sent e m (xs ++ ys) m'' := by
  obtain ⟨h1, h2, h3⟩ := h
  obtain ⟨g1, g2, g3⟩ := h'
  refine ⟨?_, ?_, ?_⟩
  · rw [g1, h1, List.length_append, Nat.mul_add, Nat.add_assoc]
  · rw [g2, h2, h3, tones_append, List.reverse_append, List.append_assoc]
  · rw [g3, h3, tonesPhase_append]

/-- A cell that fits is sent at the current level, changing neither level nor counter. -/
theorem Mod.cell_ok {e : ModEnv} {m : Mod} (hs : 0 < e.spb) (h : m.n + e.spb ≤ e.max) :
    ∃ m', m.cell e = .ok m' ∧ m'.level = m.level ∧ m'.ones = m.ones ∧ Mod.sent e m [m.level] m' := by
  refine ⟨Mod.emit e e.spb m, by simp [Mod.cell, Nat.not_lt.2 h], by simp, by simp, by simp, ?_, ?_⟩
  · simp [Mod.emit_out, tones]
  · rw [Mod.emit_phase_eq e e.spb m hs]
    simp [tonesPhase, cellPhase, toneHz_eq]

theorem Mod.cell_error {e : ModEnv} {m : Mod} (h : e.max < m.n + e.spb) : m.cell e = .error m := by
  simp [Mod.cell, h]

/-- The stuffed cell of the stuffing step, once the counter has reached its limit (42_afsk.md R177). -/
def Mod.stuffed (e : ModEnv) (m : Mod) : Except Mod Mod :=
  match m.toggle.cell e with
  | .error m' => .error m'
  | .ok m' => .ok { m' with ones := 0 }

/-- The cells of one input bit. -/
def bitCells (l : Bool) (n : Nat) : Bool × Bool → List Bool
  | (false, b) => [l ^^ !b]
  | (true, false) => [!l]
  | (true, true) => if n + 1 = 5 then [l, !l] else [l]

/-- The level and the counter after one input bit. -/
def bitState (l : Bool) (n : Nat) : Bool × Bool → Bool × Nat
  | (false, b) => (l ^^ !b, 0)
  | (true, false) => (!l, 0)
  | (true, true) => if n + 1 = 5 then (!l, 0) else (l, n + 1)

theorem lineCode_cons (l : Bool) (n : Nat) (x : Bool × Bool) (rest : List (Bool × Bool)) :
    lineCode l n (x :: rest) = bitCells l n x ++ lineCode (bitState l n x).1 (bitState l n x).2 rest := by
  obtain ⟨_ | _, _ | _⟩ := x <;> simp only [lineCode, bitCells, bitState, List.cons_append, List.nil_append]
  split <;> simp

/-- One bit: either all its cells fit and are sent, or the run ends at the first that does not, with that cell's
toggle applied (42_afsk.md R175, R177, R178, R180). -/
theorem Mod.bit_cases (e : ModEnv) (m : Mod) (x : Bool × Bool) (hs : 0 < e.spb) :
    (m.n + e.spb * (bitCells m.level m.ones x).length ≤ e.max ∧
      ∃ m', m.bit e x.1 x.2 = .ok m' ∧ Mod.sent e m (bitCells m.level m.ones x) m' ∧
        m'.level = (bitState m.level m.ones x).1 ∧ m'.ones = (bitState m.level m.ones x).2) ∨
    (∃ pre post c m', bitCells m.level m.ones x = pre ++ c :: post ∧
      m.n + e.spb * pre.length ≤ e.max ∧ e.max < m.n + e.spb * (pre.length + 1) ∧
      m.bit e x.1 x.2 = .error m' ∧ Mod.sent e m pre m' ∧ m'.level = c) ∨ e.max < m.n := by
  by_cases hmax : e.max < m.n
  · exact .inr (.inr hmax)
  obtain ⟨inreg, b⟩ := x
  -- the level after the NRZI step, at which the bit's own cell is sent
  have hl : (m.nrzi b).level = (m.level ^^ !b) := by cases b <;> simp [Mod.nrzi, Mod.toggle]
  have hpn : (m.nrzi b).phase = m.phase := by cases b <;> rfl
  have hnn : (m.nrzi b).n = m.n := by cases b <;> rfl
  have hon : (m.nrzi b).out = m.out := by cases b <;> rfl
  have sentN : Mod.sent e m [] (m.nrzi b) := Mod.sent_nil e m _ hnn hon hpn
  by_cases h1 : e.max < m.n + e.spb
  · refine .inr (.inl ⟨[], (bitCells m.level m.ones (inreg, b)).tail, m.level ^^ !b, m.nrzi b, ?_, by simp; omega,
      by simpa using h1, ?_, sentN, hl⟩)
    · cases inreg <;> cases b <;> simp [bitCells]
      split <;> simp
    · simp only [Mod.bit]
      rw [Mod.cell_error (by rw [hnn]; exact h1)]
  · obtain ⟨m1, hc1, hl1, ho1, hs1⟩ := Mod.cell_ok (m := m.nrzi b) hs (by rw [hnn]; omega)
    have hsend1 : Mod.sent e m [m.level ^^ !b] m1 := by
      have := Mod.sent_append sentN hs1
      rwa [List.nil_append, hl] at this
    have hbit : m.bit e inreg b = m1.stuff e inreg := by simp only [Mod.bit]; rw [hc1]
    cases inreg with
    | false =>
      refine .inl ⟨by simp [bitCells]; omega, { m1 with ones := 0 }, by rw [hbit]; rfl, ?_, ?_, rfl⟩
      · exact hsend1
      · show m1.level = _
        rw [hl1, hl]; rfl
    | true =>
      cases b with
      | false =>
        have h0 : m1.ones = 0 := by rw [ho1]; rfl
        refine .inl ⟨by simp [bitCells]; omega, m1, ?_, ?_, ?_, ?_⟩
        · rw [hbit]; simp [Mod.stuff, h0, stuffLimit]
        · simpa [bitCells] using hsend1
        · rw [hl1, hl]; simp [bitState]
        · rw [h0]; rfl
      | true =>
        have h0 : m1.ones = m.ones + 1 := by rw [ho1]; rfl
        have hlev : m1.level = m.level := by rw [hl1, hl]; simp
        by_cases h5 : m.ones + 1 = 5
        · have hst : m1.stuff e true = m1.stuffed e := by
            rw [Mod.stuff, if_pos rfl, if_pos (show m1.ones = stuffLimit by rw [h0, h5]; rfl)]; rfl
          have sentT : Mod.sent e m1 [] m1.toggle := Mod.sent_nil e m1 _ rfl rfl rfl
          have hn1 : m1.n = m.n + e.spb := by simpa using hsend1.1
          by_cases h2 : e.max < m1.n + e.spb
          · refine .inr (.inl ⟨[m.level], [], !m.level, m1.toggle, ?_, ?_, ?_, ?_, ?_, ?_⟩)
            · simp [bitCells, h5]
            · simp; omega
            · simp; omega
            · rw [hbit, hst, Mod.stuffed, Mod.cell_error (show e.max < m1.toggle.n + e.spb from h2)]
            · have := Mod.sent_append hsend1 sentT
              simpa using this
            · simp [Mod.toggle, hlev]
          · obtain ⟨m2, hc2, hl2, ho2, hs2⟩ := Mod.cell_ok (m := m1.toggle) hs (show m1.n + e.spb ≤ e.max by omega)
            refine .inl ⟨?_, { m2 with ones := 0 }, ?_, ?_, ?_, ?_⟩
            · simp [bitCells, h5]; omega
            · rw [hbit, hst, Mod.stuffed, hc2]
            · have h := Mod.sent_append hsend1 (Mod.sent_append sentT hs2)
              have ht : m1.toggle.level = !m.level := by simp [Mod.toggle, hlev]
              rw [ht] at h
              have hcells : bitCells m.level m.ones (true, true) = [m.level ^^ !true] ++ ([] ++ [!m.level]) := by
                simp [bitCells, h5]
              rw [hcells]
              exact h
            · show m2.level = _
              rw [hl2]; simp [bitState, h5, Mod.toggle, hlev]
            · simp [bitState, h5]
        · refine .inl ⟨by simp [bitCells, h5]; omega, m1, ?_, ?_, ?_, ?_⟩
          · rw [hbit]; simp [Mod.stuff, h0, h5, stuffLimit]
          · simpa [bitCells, h5] using hsend1
          · rw [hlev]; simp [bitState, h5]
          · rw [h0]; simp [bitState, h5]

/-- The last level of a line code, the start level where it is empty, runs through the bit states. -/
theorem lineCode_getLastD (l : Bool) (n : Nat) (x : Bool × Bool) (rest : List (Bool × Bool)) :
    (lineCode l n (x :: rest)).getLastD l =
      (lineCode (bitState l n x).1 (bitState l n x).2 rest).getLastD (bitState l n x).1 := by
  rw [lineCode_cons]
  have h : (bitCells l n x).getLastD l = (bitState l n x).1 := by
    obtain ⟨_ | _, _ | _⟩ := x <;> simp [bitCells, bitState]
    split <;> simp
  cases hc : lineCode (bitState l n x).1 (bitState l n x).2 rest with
  | nil => simpa using h
  | cons c cs => simp [List.getLastD_eq_getLast?, List.getLast?_append, List.getLast?_cons]

/-- A whole run: all cells of the line code fit and are sent, or the run ends at the first that does not. -/
theorem Mod.run_cases (e : ModEnv) (xs : List (Bool × Bool)) (m : Mod) (hs : 0 < e.spb) (hn : m.n ≤ e.max) :
    (m.n + e.spb * (lineCode m.level m.ones xs).length ≤ e.max ∧
      ∃ m', Mod.run e xs m = .ok m' ∧ Mod.sent e m (lineCode m.level m.ones xs) m' ∧
        m'.level = (lineCode m.level m.ones xs).getLastD m.level) ∨
    (∃ pre post c m', lineCode m.level m.ones xs = pre ++ c :: post ∧
      m.n + e.spb * pre.length ≤ e.max ∧ e.max < m.n + e.spb * (pre.length + 1) ∧
      Mod.run e xs m = .error m' ∧ Mod.sent e m pre m' ∧ m'.level = c) := by
  induction xs generalizing m with
  | nil => exact .inl ⟨by simpa [lineCode] using hn, m, rfl, Mod.sent_nil e m m rfl rfl rfl, rfl⟩
  | cons x xs ih =>
    rcases Mod.bit_cases e m x hs with ⟨hfit, m1, hb, hs, hl, ho⟩ | ⟨pre, post, c, m1, hc, h1, h2, hb, hs, hl⟩ | h
    · have hrun : Mod.run e (x :: xs) m = Mod.run e xs m1 := by
        obtain ⟨inreg, b⟩ := x
        simp only [Mod.run]; rw [hb]
      have hcode : lineCode m.level m.ones (x :: xs) = bitCells m.level m.ones x ++ lineCode m1.level m1.ones xs := by
        rw [lineCode_cons, hl, ho]
      rcases ih m1 (by rw [hs.1]; exact hfit) with ⟨hf, m2, hr2, hs2, hl2⟩ | ⟨pre, post, c, m2, hc, h1, h2, hr2, hs2, hl2⟩
      · refine .inl ⟨?_, m2, by rw [hrun, hr2], ?_, ?_⟩
        · rw [hcode, List.length_append, Nat.mul_add, ← Nat.add_assoc, ← hs.1]; exact hf
        · rw [hcode]; exact Mod.sent_append hs hs2
        · rw [lineCode_getLastD, ← hl, ← ho]; exact hl2
      · refine .inr ⟨bitCells m.level m.ones x ++ pre, post, c, m2, ?_, ?_, ?_, by rw [hrun, hr2], Mod.sent_append hs hs2, hl2⟩
        · rw [hcode, hc, List.append_assoc]
        · rw [List.length_append, Nat.mul_add, ← Nat.add_assoc, ← hs.1]; exact h1
        · rw [List.length_append, Nat.add_assoc, Nat.mul_add, ← Nat.add_assoc, ← hs.1]; exact h2
    · refine .inr ⟨pre, post ++ lineCode (bitState m.level m.ones x).1 (bitState m.level m.ones x).2 xs, c, m1, ?_, h1, h2,
        ?_, hs, hl⟩
      · rw [lineCode_cons, hc]; simp
      · obtain ⟨inreg, b⟩ := x
        simp only [Mod.run]; rw [hb]
    · omega

/-! ### The body of MODULATE -/

theorem State.modStart_eq (s : State) :
    s.modStart = { phase := s.startPhase, level := s.startLevel, ones := 0, n := 0, out := [] } := by
  unfold State.modStart State.startPhase State.startLevel
  split <;> rfl

theorem State.readBytes_eq_range (s : State) (m : BlockMem) (i n : Nat) :
    s.readBytes m i n = (List.range n).map (fun k => s.byte m (i + k)) := by
  rw [State.readBytes_eq_map, List.range'_eq_map_range, List.map_map]; rfl

/-- MODULATE: a length out of range, and only `SAMPLE_COUNT` changes; or the run of the frame's bits, from the initial
state, ended or aborted. -/
theorem modulateBody_cases (s : State) :
    ((s.cfg.frameCap < s.frameCount ∨ s.cfg.sampleCap < s.sampleLimit) ∧
      modulateBody s = (s.clearSampleCount, .badLen)) ∨
    (s.frameCount ≤ s.cfg.frameCap ∧ s.sampleLimit ≤ s.cfg.sampleCap ∧
      modulateBody s =
        match Mod.run s.modEnv s.inputBits s.modStart with
        | .ok m => (s.modLeave m m.n, .noError)
        | .error m => (s.modLeave m 0, .sampleOverflow)) := by
  unfold modulateBody
  split
  · exact .inl ⟨.inl (by omega), rfl⟩
  · split
    · exact .inl ⟨.inr (by omega), rfl⟩
    · refine .inr ⟨by omega, by omega, ?_⟩
      rw [Mod.bytes_eq_run, State.readBytes_eq_range]
      simp only [Nat.zero_add]
      rfl

@[simp] theorem State.modLeave_cfg (s : State) (m : Mod) (n : Nat) : (s.modLeave m n).cfg = s.cfg := rfl
@[simp] theorem State.modLeave_inFlight (s : State) (m : Mod) (n : Nat) : (s.modLeave m n).inFlight = s.inFlight := rfl
@[simp] theorem State.modLeave_pathMem (s : State) (m : Mod) (n : Nat) : (s.modLeave m n).pathMem = s.pathMem := rfl
@[simp] theorem State.modLeave_payloadMem (s : State) (m : Mod) (n : Nat) :
    (s.modLeave m n).payloadMem = s.payloadMem := rfl
@[simp] theorem State.modLeave_frameMem (s : State) (m : Mod) (n : Nat) : (s.modLeave m n).frameMem = s.frameMem := rfl
@[simp] theorem State.modLeave_sampleMem (s : State) (m : Mod) (n : Nat) :
    (s.modLeave m n).sampleMem = Memory.write s.sampleMem 0 m.out.reverse := rfl
@[simp] theorem State.modLeave_inputs (s : State) (m : Mod) (n : Nat) : (s.modLeave m n).inputs = s.inputs := rfl
@[simp] theorem State.modLeave_reads (s : State) (m : Mod) (n : Nat) : (s.modLeave m n).reads = s.reads := rfl
@[simp] theorem State.modLeave_delays (s : State) (m : Mod) (n : Nat) : (s.modLeave m n).delays = s.delays := rfl
@[simp] theorem State.modLeave_draws (s : State) (m : Mod) (n : Nat) : (s.modLeave m n).draws = s.draws := rfl
@[simp] theorem State.modLeave_epoch (s : State) (m : Mod) (n : Nat) : (s.modLeave m n).epoch = s.epoch := rfl
@[simp] theorem State.modLeave_regs (s : State) (m : Mod) (n : Nat) : (s.modLeave m n).regs = { s.regs with
    sampleCount := BitVec.ofNat 17 n, modPhase := BitVec.ofNat 16 m.phase, modLevel := m.level } := rfl

/-- MODULATE stores to `SAMPLE_MEM` alone. -/
theorem State.modLeave_byte_ne (s : State) (m : Mod) (n : Nat) (x : BlockMem) (hx : x ≠ .sample) (i : Nat) :
    (s.modLeave m n).byte x i = s.byte x i := by
  simp only [State.modLeave, State.byte_withRegs]
  exact State.byte_writeBytes_ne s .sample x 0 _ hx i

/-- The bytes of `SAMPLE_MEM` after a run. -/
theorem State.modLeave_byte_sample (s : State) (m : Mod) (n : Nat) (i : Nat) :
    (s.modLeave m n).byte .sample i =
      if h : i < m.out.length then m.out.reverse[i]'(by simpa using h) else s.byte .sample i := by
  simp only [State.modLeave, State.byte_withRegs]
  rw [State.byte_writeBytes]
  by_cases h : i < m.out.length <;> simp [h]

end Sys2Proof.Machine
end

