-- ==== Sys2Proof/Laws/Framer.lean ====
section
/-! SUPPORT. Lengths and bytes of a built frame, and what the bodies of CRC and BUILD can do. -/

namespace Sys2Proof.Machine

/-! ### The pieces of a frame -/

@[simp] theorem padCall_length (c : List Byte) : (padCall c).length = c.length := by
  induction c with
  | nil => rfl
  | cons b bs ih => by_cases h : b = 0#8 <;> simp [padCall, h, ih]

theorem padCall_getElem? (c : List Byte) (j : Nat) (h : j < c.length) : (padCall c)[j]? = some (padAt c j) := by
  induction c generalizing j with
  | nil => simp at h
  | cons b bs ih =>
    by_cases hb : b = 0#8
    · subst hb
      simp at h
      simp [padCall, padAt, h]
    · cases j with
      | zero => simp [padCall, hb, padAt]
      | succ j =>
        have h' : j < bs.length := by simpa using h
        simp [padCall, hb, ih j h', padAt]

@[simp] theorem callBytes_length (c0 : BitVec 32) (c1 : BitVec 16) : (callBytes c0 c1).length = 6 := rfl

@[simp] theorem State.dstCall_length (s : State) : s.dstCall.length = 6 := rfl

@[simp] theorem State.srcCall_length (s : State) : s.srcCall.length = 6 := rfl

@[simp] theorem markLast_length (l : List Byte) : (markLast l).length = l.length := by
  induction l with
  | nil => rfl
  | cons b bs ih => cases bs <;> simp_all [markLast]

/-- Every byte but the last stands as it was; the last has its bit 0 set. -/
theorem markLast_getElem? (l : List Byte) (i : Nat) (h : i < l.length) :
    (markLast l)[i]? = some (if i + 1 = l.length then l[i] ||| 0x01 else l[i]) := by
  induction l generalizing i with
  | nil => simp at h
  | cons b bs ih =>
    cases bs with
    | nil =>
      have : i = 0 := by simpa using h
      subst this
      simp [markLast]
    | cons b' bs =>
      cases i with
      | zero => simp [markLast]
      | succ i =>
        have h' : i < (b' :: bs).length := by simpa using h
        rw [markLast, List.getElem?_cons_succ, ih i h']
        simp

@[simp] theorem State.addressPlain_length (s : State) : s.addressPlain.length = 14 + s.pathBytes := by
  simp [State.addressPlain]; omega

@[simp] theorem State.addressRegion_length (s : State) : s.addressRegion.length = 14 + s.pathBytes := by
  simp [State.addressRegion]

@[simp] theorem State.frameBody_length (s : State) :
    s.frameBody.length = 16 + s.pathBytes + s.payloadBytes := by
  simp [State.frameBody]; omega

@[simp] theorem fcsBytes_length (f : BitVec 16) : (fcsBytes f).length = 2 := rfl

/-- The frame has T bytes (41_framer.md R140). -/
@[simp] theorem State.frameBytes_length (s : State) : s.frameBytes.length = s.frameTotal := by
  simp [State.frameBytes, State.frameTotal]; omega

/-! ### What a body can do -/

/-- CRC: out of range, only the code; in range, only `CRC_RESULT` (40_crc.md R124). -/
theorem crcBody_cases (s : State) :
    (s.cfg.frameCap < s.crcStart + s.crcCount ∧ crcBody s = (s, .badLen)) ∨
    (s.crcStart + s.crcCount ≤ s.cfg.frameCap ∧
      crcBody s =
        ({ s with regs := { s.regs with crcResult := crc16 (s.readBytes .frame s.crcStart s.crcCount) } }, .noError)) := by
  unfold crcBody
  split
  · exact .inl ⟨by omega, rfl⟩
  · exact .inr ⟨by omega, rfl⟩

/-- The state a successful BUILD leaves before its completion (41_framer.md R148, R149). -/
def State.built (s : State) : State :=
  { s.writeBytes .frame 0 s.frameBytes with
    regs := { s.regs with
      frameLen := BitVec.ofNat 16 s.frameTotal
      startStuff := BitVec.ofNat 16 s.preCount - 1
      endStuff := BitVec.ofNat 16 (s.preCount + 18 + s.pathBytes + s.payloadBytes) } }

/-- BUILD: the checks fail, and only `FRAME_LEN` changes, or they pass and the frame is stored. -/
theorem buildBody_cases (s : State) :
    (¬ s.buildFits ∧ ∃ e, (e = .badLen ∨ e = .frameOverflow) ∧ buildBody s = (s.setFrameLen 0, e)) ∨
    (s.buildFits ∧ buildBody s = (s.built, .noError)) := by
  unfold buildBody
  simp only [Config.cap, pathCap]
  split
  · exact .inl ⟨fun h => by rcases h with ⟨h1, h2, -⟩; omega, .badLen, .inl rfl, rfl⟩
  · split
    · exact .inl ⟨fun h => by rcases h with ⟨-, -, h3, -⟩; omega, .badLen, .inl rfl, rfl⟩
    · split
      · exact .inl ⟨fun h => by rcases h with ⟨-, -, -, h4⟩; omega, .frameOverflow, .inr rfl, rfl⟩
      · exact .inr ⟨⟨by omega, by omega, by omega, by omega⟩, rfl⟩

theorem buildBody_of_fits {s : State} (h : s.buildFits) : buildBody s = (s.built, .noError) := by
  rcases buildBody_cases s with ⟨h', -⟩ | ⟨-, h'⟩
  · exact absurd h h'
  · exact h'

@[simp] theorem State.built_cfg (s : State) : s.built.cfg = s.cfg := rfl
@[simp] theorem State.built_inFlight (s : State) : s.built.inFlight = s.inFlight := rfl
@[simp] theorem State.built_pathMem (s : State) : s.built.pathMem = s.pathMem := rfl
@[simp] theorem State.built_payloadMem (s : State) : s.built.payloadMem = s.payloadMem := rfl
@[simp] theorem State.built_frameMem (s : State) : s.built.frameMem = Memory.write s.frameMem 0 s.frameBytes := rfl
@[simp] theorem State.built_sampleMem (s : State) : s.built.sampleMem = s.sampleMem := rfl
@[simp] theorem State.built_inputs (s : State) : s.built.inputs = s.inputs := rfl
@[simp] theorem State.built_reads (s : State) : s.built.reads = s.reads := rfl
@[simp] theorem State.built_delays (s : State) : s.built.delays = s.delays := rfl
@[simp] theorem State.built_draws (s : State) : s.built.draws = s.draws := rfl
@[simp] theorem State.built_epoch (s : State) : s.built.epoch = s.epoch := rfl
@[simp] theorem State.built_regs (s : State) : s.built.regs = { s.regs with
    frameLen := BitVec.ofNat 16 s.frameTotal
    startStuff := BitVec.ofNat 16 s.preCount - 1
    endStuff := BitVec.ofNat 16 (s.preCount + 18 + s.pathBytes + s.payloadBytes) } := rfl

/-- The bytes of `FRAME_MEM` after BUILD: the frame below T, the old bytes from T on. -/
theorem State.built_byte_frame (s : State) (i : Nat) :
    s.built.byte .frame i = if h : i < s.frameTotal then s.frameBytes[i]'(by simpa using h) else s.byte .frame i := by
  have h := State.byte_writeBytes s .frame 0 s.frameBytes i
  simp only [State.built, State.byte_withRegs]
  rw [h]
  by_cases hi : i < s.frameTotal <;> simp [hi]

/-- BUILD stores to no other memory. -/
theorem State.built_byte_ne (s : State) (m : BlockMem) (hm : m ≠ .frame) (i : Nat) :
    s.built.byte m i = s.byte m i := by
  simp only [State.built, State.byte_withRegs]
  exact State.byte_writeBytes_ne s .frame m 0 s.frameBytes hm i

end Sys2Proof.Machine
end

