-- ==== Sys2Proof/Laws/PerInstr.lean ====
section
/-! SUPPORT. Facts stated for every command, one lemma per constructor. -/

namespace Sys2Proof.Laws

/-- The number each row of spec/opcode_table.json matches under its mask 0xFFFFFFFF. -/
def tableMatch : Instr → Nat
  | .crc => 0x00000001
  | .build => 0x00000002
  | .modulate => 0x00000003
  | .buildmod => 0x00000004
  | .sreset => 0x0000000F

/-- A command is well-formed, its word is the one its table row matches, the field `MBZ` of that word is zero, and the
table's 32 bits read back as the command (30_encoding.md R90, R91). -/
def TableRow.Statement (i : Instr) : Prop :=
  i.wellFormed = true ∧ (encode i).toNat = tableMatch i ∧ mbzField (encode i) = 0 ∧
  decodeTableWord 32 (tableMatch i) = some i

theorem TableRow.crc : TableRow.Statement .crc := by unfold TableRow.Statement; decide
theorem TableRow.build : TableRow.Statement .build := by unfold TableRow.Statement; decide
theorem TableRow.modulate : TableRow.Statement .modulate := by unfold TableRow.Statement; decide
theorem TableRow.buildmod : TableRow.Statement .buildmod := by unfold TableRow.Statement; decide
theorem TableRow.sreset : TableRow.Statement .sreset := by unfold TableRow.Statement; decide

end Sys2Proof.Laws
end

