-- ==== Sys2Proof/Laws/Step.lean ====
section
/-! SUPPORT. What one step can do, said once: which agent moves, and what each event of the host port does. -/

namespace Sys2Proof.Machine

/-! ### The address map -/

theorem regAt_regOffset (r : Reg) : regAt (regOffset r / 4) = some r := by cases r <;> rfl

theorem regAt_eq_some {k : Nat} {r : Reg} (h : regAt k = some r) : k = regOffset r / 4 := by
  have hk : k < 24 := by
    by_contra hk
    rw [regAt, List.getElem?_eq_none (by simpa [regList] using hk)] at h
    cases h
  interval_cases k <;> cases h <;> rfl

theorem regAt_none {k : Nat} (h : 24 ≤ k) : regAt k = none := by
  rw [regAt]; exact List.getElem?_eq_none (by simpa [regList] using h)

/-- An offset of a register's word names the register (10_state.md R22; 20_memory.md R60). -/
theorem locate_register (c : Config) (off : Nat) (r : Reg) (h : off / 4 = regOffset r / 4) :
    locate c off = .register r := by
  rw [locate, h, regAt_regOffset]

/-- What a place is when an offset names it. -/
theorem locate_cases (c : Config) (off : Nat) :
    (∃ r, locate c off = .register r ∧ off / 4 = regOffset r / 4) ∨
    (∃ m i, locate c off = .window m i ∧ i < c.cap m ∧ i % 4 = 0 ∧ alignOffset off = windowBase m + i) ∨
    locate c off = .reserved := by
  unfold locate
  cases hr : regAt (off / 4) with
  | some r => exact .inl ⟨r, rfl, regAt_eq_some hr⟩
  | none =>
    cases hw : windowOf (alignOffset off) with
    | none => exact .inr (.inr rfl)
    | some m =>
      have hb : windowBase m ≤ alignOffset off ∧ windowBase m % 4 = 0 := by
        unfold windowOf at hw
        split at hw
        · cases hw; exact ⟨by simp [windowBase]; omega, rfl⟩
        · split at hw
          · cases hw; exact ⟨by simp [windowBase]; omega, rfl⟩
          · split at hw
            · cases hw; exact ⟨by simp [windowBase]; omega, rfl⟩
            · split at hw
              · cases hw; exact ⟨by simp [windowBase]; omega, rfl⟩
              · cases hw
      by_cases hc : alignOffset off - windowBase m < c.cap m
      · refine .inr (.inl ⟨m, _, by simp [hc], hc, ?_, by omega⟩)
        have : alignOffset off % 4 = 0 := by simp [alignOffset]
        omega
      · exact .inr (.inr (by simp [hc]))

/-! ### Lanes -/

@[simp] theorem lanes_length (v : Word) (n : Nat) : (lanes v n).length = n := by simp [lanes]

theorem lanes_getElem (v : Word) (n j : Nat) (h : j < n) :
    (lanes v n)[j]'(by simpa using h) = v.extractLsb' (8 * j) 8 := by
  simp [lanes, lane]

/-- Lane `j` of packed lanes, for at most four of them (20_memory.md R64). -/
theorem packLanes_lane (bs : List Byte) (h : bs.length ≤ 4) (j : Nat) (hj : j < 4) :
    (packLanes bs).extractLsb' (8 * j) 8 = bs.getD j 0 := by
  match bs, h with
  | [], _ => simp [packLanes]
  | [a], _ => interval_cases j <;> ext k hk <;> simp [packLanes] <;> interval_cases k <;> simp
  | [a, b], _ => interval_cases j <;> ext k hk <;> simp [packLanes] <;> interval_cases k <;> simp
  | [a, b, c], _ => interval_cases j <;> ext k hk <;> simp [packLanes] <;> interval_cases k <;> simp
  | [a, b, c, d], _ => interval_cases j <;> ext k hk <;> simp [packLanes] <;> interval_cases k <;> simp

/-! ### Which agent moves -/

/-- Every command answers a next state, on every state: no command faults or is refused (60_exceptions.md R236). -/
theorem exec_next (i : Instr) (s : State) : ∃ t, exec i s = .next t := by
  cases i <;> exact ⟨_, rfl⟩

/-- A command that is done leaves nothing in flight (60_exceptions.md R231; 43_control.md R211). -/
theorem exec_inFlight {i : Instr} {s t : State} (h : exec i s = .next t) : t.inFlight = none := by
  cases i <;> cases h <;> rfl

/-- Completing a command leaves the build, the host side and the epoch alone. -/
theorem State.sameSurround_complete {s t : State} (h : s.sameSurround t) (e : ErrCode) : s.sameSurround (t.complete e) :=
  h

/-- The body of MODULATE leaves the build, the host side and the epoch alone. -/
theorem modulateBody_sameSurround (s : State) : s.sameSurround (modulateBody s).1 := by
  rcases modulateBody_cases s with ⟨_, h⟩ | ⟨_, _, h⟩
  · rw [h]; exact ⟨rfl, rfl, rfl, rfl, rfl, rfl⟩
  · rw [h]; split <;> exact ⟨rfl, rfl, rfl, rfl, rfl, rfl⟩

/-- No command changes the build, the host side or the epoch (20_memory.md R72). -/
theorem exec_sameSurround {i : Instr} {s t : State} (h : exec i s = .next t) : s.sameSurround t := by
  cases i <;> cases h
  · rcases crcBody_cases s with ⟨_, h⟩ | ⟨_, h⟩ <;> rw [finish, h] <;> exact ⟨rfl, rfl, rfl, rfl, rfl, rfl⟩
  · rcases buildBody_cases s with ⟨_, e, _, h⟩ | ⟨_, h⟩ <;> rw [finish, h] <;> exact ⟨rfl, rfl, rfl, rfl, rfl, rfl⟩
  · exact modulateBody_sameSurround s
  · rcases buildBody_cases s with ⟨_, e, he, h⟩ | ⟨_, h⟩
    · rcases he with rfl | rfl <;> rw [finish, buildmodBody, h] <;> exact ⟨rfl, rfl, rfl, rfl, rfl, rfl⟩
    · rw [finish, buildmodBody, h]
      exact modulateBody_sameSurround s.built
  · exact ⟨rfl, rfl, rfl, rfl, rfl, rfl⟩

/-- The engine is due: a step is the completion step. -/
theorem step_engine {s : State} {c : InFlight} (hl : s.cfg.legal = true) (hf : s.inFlight = some c)
    (hd : c.hold = 0 ∨ s.inputs = []) : step s = completionStep c.word s := by
  have : engineDue c s = true := by rcases hd with h | h <;> simp [engineDue, h]
  simp [step, hl, event, hf, this]

theorem State.inFlight_cases (s : State) : s.inFlight = none ∨ ∃ c, s.inFlight = some c := by
  cases s.inFlight <;> simp

theorem State.inputs_cases (s : State) : s.inputs = [] ∨ ∃ x rest, s.inputs = x :: rest := by
  cases s.inputs <;> simp

/-- The port is next and the outside has asked for something: a step is that event. -/
theorem step_port {s : State} {x : Input} {rest : List Input} (hl : s.cfg.legal = true) (hp : s.portNext)
    (hi : s.inputs = x :: rest) : step s = inputEvent x { s with inputs := rest } := by
  have hpe : portEvent s = inputEvent x { s with inputs := rest } := by rw [portEvent, hi]
  have he : event s = portEvent s := by
    rcases s.inFlight_cases with hf | ⟨c, hf⟩
    · unfold event; rw [hf]
    · have hd : engineDue c s = false := by simp [engineDue, hp c hf, hi]
      unfold event; rw [hf]; simp [hd]
  rw [step, if_pos hl, he, hpe]

theorem portNext_of_none {s : State} (h : s.inFlight = none) : s.portNext := by
  intro c hc; rw [h] at hc; cases hc

theorem portNext_of_hold {s : State} {c : InFlight} (h : s.inFlight = some c) (hc : c.hold ≠ 0) : s.portNext := by
  intro d hd; rw [h] at hd; cases hd; exact hc

/-- The inversion of a step: an idle block with nothing to do, a completion step, or the first event of the list. -/
theorem step_cases {s t : State} (h : step s = .next t) :
    s.cfg.legal = true ∧
    ((s.inFlight = none ∧ s.inputs = [] ∧ t = s) ∨
     (∃ c, s.inFlight = some c ∧ (c.hold = 0 ∨ s.inputs = []) ∧ completionStep c.word s = .next t) ∨
     (∃ x rest, s.inputs = x :: rest ∧ s.portNext ∧ inputEvent x { s with inputs := rest } = .next t)) := by
  have hl : s.cfg.legal = true := by
    by_contra hl
    simp [step, hl] at h
  refine ⟨hl, ?_⟩
  rcases s.inFlight_cases with hf | ⟨c, hf⟩
  · rcases s.inputs_cases with hi | ⟨x, rest, hi⟩
    · rw [step, if_pos hl, event, hf] at h
      simp only [portEvent, hi] at h
      cases h
      exact .inl ⟨hf, hi, rfl⟩
    · rw [step_port hl (portNext_of_none hf) hi] at h
      exact .inr (.inr ⟨x, rest, hi, portNext_of_none hf, h⟩)
  · by_cases hd : c.hold = 0 ∨ s.inputs = []
    · rw [step_engine hl hf hd] at h
      exact .inr (.inl ⟨c, hf, hd, h⟩)
    · rw [not_or] at hd
      rcases s.inputs_cases with hi | ⟨x, rest, hi⟩
      · exact absurd hi hd.2
      · rw [step_port hl (portNext_of_hold hf hd.1) hi] at h
        exact .inr (.inr ⟨x, rest, hi, portNext_of_hold hf hd.1, h⟩)

/-- A completion step is the command of the word, or the end of a reserved one. -/
theorem completionStep_cases {w : Word} {s t : State} (h : completionStep w s = .next t) :
    (∃ i, decode w = .ok i ∧ exec i s = .next t) ∨
    (∃ e, decode w = .error e ∧ t = s.complete .badCmd) := by
  unfold completionStep at h
  cases hd : decode w with
  | ok i => rw [hd] at h; exact .inl ⟨i, rfl, h⟩
  | error e => rw [hd] at h; cases h; exact .inr ⟨e, rfl, rfl⟩

/-- A host write: dropped while busy, else SRESET, an issue, a register, a window word, or a reserved offset. -/
theorem hostWrite_cases {off : Nat} {v : Word} {s t : State} (h : hostWrite off v s = .next t) :
    (s.busy = true ∧ t = s.setWrBusy) ∨
    (s.busy = false ∧
      ((locate s.cfg off = .register .cmd ∧ decode v = .ok .sreset ∧ t = s.resetRegs) ∨
       (locate s.cfg off = .register .cmd ∧ decode v ≠ .ok .sreset ∧ t = accept v s) ∨
       (∃ r, locate s.cfg off = .register r ∧ r ≠ .cmd ∧ t = s.writeReg r v) ∨
       (∃ m i, locate s.cfg off = .window m i ∧ t = s.writeWindow m i v) ∨
       (locate s.cfg off = .reserved ∧ t = s.setBadAccess))) := by
  unfold hostWrite at h
  cases hb : s.busy with
  | true => simp [hb] at h; exact .inl ⟨rfl, h.symm⟩
  | false =>
    refine .inr ⟨rfl, ?_⟩
    simp only [hb, Bool.false_eq_true, if_false] at h
    cases hp : locate s.cfg off with
    | reserved => rw [hp] at h; cases h; exact .inr (.inr (.inr (.inr ⟨rfl, rfl⟩)))
    | window m i => rw [hp] at h; cases h; exact .inr (.inr (.inr (.inl ⟨m, i, rfl, rfl⟩)))
    | register r =>
      rw [hp] at h
      by_cases hr : r = .cmd
      · subst hr
        simp only [issue] at h
        cases hd : decode v with
        | error e => rw [hd] at h; cases h; exact .inr (.inl ⟨rfl, by simp, rfl⟩)
        | ok i =>
          rw [hd] at h
          cases i
          case sreset => cases h; exact .inl ⟨rfl, rfl, rfl⟩
          all_goals cases h; exact .inr (.inl ⟨rfl, by simp, rfl⟩)
      · refine .inr (.inr (.inl ⟨r, rfl, hr, ?_⟩))
        cases r <;> first | exact absurd rfl hr | (cases h; rfl)

/-- A host read changes only `reads` and `draws`. -/
theorem State.hostRead_eq (off : Nat) (s : State) :
    ∃ v n, s.hostRead off = { s with reads := v :: s.reads, draws := n } := by
  unfold State.hostRead
  split
  · exact ⟨_, _, rfl⟩
  · exact ⟨_, s.draws, rfl⟩

/-- The value an idle read returns. -/
theorem State.hostRead_idle (off : Nat) (s : State) (h : s.busy = false) :
    s.hostRead off = s.answer (s.peek (locate s.cfg off)) := by
  simp [State.hostRead, h]

theorem State.passTransfer_idle {s : State} (h : s.inFlight = none) : s.passTransfer = s := by
  cases s; cases h; rfl

/-! ### Reads -/

@[simp] theorem State.hostRead_cfg (off : Nat) (s : State) : (s.hostRead off).cfg = s.cfg := by
  unfold State.hostRead; split <;> rfl
@[simp] theorem State.hostRead_regs (off : Nat) (s : State) : (s.hostRead off).regs = s.regs := by
  unfold State.hostRead; split <;> rfl
@[simp] theorem State.hostRead_inFlight (off : Nat) (s : State) : (s.hostRead off).inFlight = s.inFlight := by
  unfold State.hostRead; split <;> rfl
@[simp] theorem State.hostRead_inputs (off : Nat) (s : State) : (s.hostRead off).inputs = s.inputs := by
  unfold State.hostRead; split <;> rfl
@[simp] theorem State.hostRead_epoch (off : Nat) (s : State) : (s.hostRead off).epoch = s.epoch := by
  unfold State.hostRead; split <;> rfl
@[simp] theorem State.hostRead_mem (off : Nat) (s : State) (m : BlockMem) : (s.hostRead off).mem m = s.mem m := by
  unfold State.hostRead; split <;> cases m <;> rfl

/-! ### The events of the port -/

/-- An offset inside the aperture is decoded. -/
theorem decodes_of_word {c : Config} {addr k : Nat} (hb : c.blockBase ≤ addr) (h : (addr - c.blockBase) / 4 = k)
    (hk : k < 0x8000) : c.decodes addr = true := by
  have h' : addr < c.blockBase + apertureBytes := by
    show addr < c.blockBase + 0x20000
    omega
  simp [Config.decodes, hb, h']

/-- A write at the idle port (20_memory.md R62, R63, R64). -/
theorem inputEvent_write_idle (u : State) (a : Nat) (v : Word) (hd : u.cfg.decodes a = true)
    (hf : u.inFlight = none) :
    inputEvent (.write a v) u =
      match locate u.cfg (a - u.cfg.blockBase) with
      | .register .cmd => issue v u
      | .register r => .next (u.writeReg r v)
      | .window m i => .next (u.writeWindow m i v)
      | .reserved => .next u.setBadAccess := by
  have hb : u.busy = false := by simp [State.busy, hf]
  simp only [inputEvent, hd, if_true, State.passTransfer_idle hf, hostWrite, hb]
  rfl

/-- A write while a command is in flight (20_memory.md R75). -/
theorem inputEvent_write_busy (u : State) (c : InFlight) (a : Nat) (v : Word) (hd : u.cfg.decodes a = true)
    (hf : u.inFlight = some c) :
    inputEvent (.write a v) u = .next { u with
      inFlight := some { word := c.word, hold := c.hold - 1 }
      regs := { u.regs with wrBusy := true } } := by
  simp [inputEvent, hd, hostWrite, State.busy, hf, State.setWrBusy, State.passTransfer]

/-- A read at the idle port (20_memory.md R62, R63, R64, R71). -/
theorem inputEvent_read_idle (u : State) (a : Nat) (hd : u.cfg.decodes a = true) (hf : u.inFlight = none) :
    inputEvent (.read a) u =
      .next { u with reads := u.peek (locate u.cfg (a - u.cfg.blockBase)) :: u.reads } := by
  have hb : u.busy = false := by simp [State.busy, hf]
  simp only [inputEvent, hd, if_true, State.passTransfer_idle hf, State.hostRead_idle _ _ hb]
  rfl

/-- A read while a command is in flight (20_memory.md R74). -/
theorem inputEvent_read_busy (u : State) (c : InFlight) (a : Nat) (hd : u.cfg.decodes a = true)
    (hf : u.inFlight = some c) :
    inputEvent (.read a) u =
      .next (({ u with inFlight := some { word := c.word, hold := c.hold - 1 } } : State).hostRead
        (a - u.cfg.blockBase)) := by
  simp [inputEvent, hd, State.passTransfer, hf]

/-! ### Registers -/

theorem State.writeReg_cfg (s : State) (r : Reg) (v : Word) : (s.writeReg r v).cfg = s.cfg := by cases r <;> rfl
theorem State.writeReg_inFlight (s : State) (r : Reg) (v : Word) : (s.writeReg r v).inFlight = s.inFlight := by
  cases r <;> rfl
theorem State.writeReg_inputs (s : State) (r : Reg) (v : Word) : (s.writeReg r v).inputs = s.inputs := by cases r <;> rfl
theorem State.writeReg_reads (s : State) (r : Reg) (v : Word) : (s.writeReg r v).reads = s.reads := by cases r <;> rfl
theorem State.writeReg_epoch (s : State) (r : Reg) (v : Word) : (s.writeReg r v).epoch = s.epoch := by cases r <;> rfl
theorem State.writeReg_mem (s : State) (r : Reg) (v : Word) (m : BlockMem) : (s.writeReg r v).mem m = s.mem m := by
  cases r <;> cases m <;> rfl

/-- A register write changes no memory byte. -/
theorem State.writeReg_byte (s : State) (r : Reg) (v : Word) (m : BlockMem) (i : Nat) :
    (s.writeReg r v).byte m i = s.byte m i :=
  State.byte_congr m (State.writeReg_mem s r v m) (State.writeReg_epoch s r v) i

/-- A write to a window word stores at most its four lanes. -/
theorem State.writeWindow_eq (s : State) (m : BlockMem) (i : Nat) (v : Word) :
    s.writeWindow m i v = s.writeBytes m i (lanes v (laneCount (s.cfg.cap m) i)) := rfl

/-- The byte read after a write to a window word: the word's lane where the index is one of its four and below the
capacity, the old byte anywhere else (20_memory.md R63, R64). -/
theorem State.writeWindow_byte (s : State) (m : BlockMem) (a : Nat) (v : Word) (m' : BlockMem) (i : Nat) :
    (s.writeWindow m a v).byte m' i =
      if m' = m ∧ a ≤ i ∧ i < a + 4 ∧ i < s.cfg.cap m then v.extractLsb' (8 * (i - a)) 8 else s.byte m' i := by
  rw [State.writeWindow_eq]
  by_cases hm : m' = m
  · subst hm
    have hlen : (lanes v (laneCount (s.cfg.cap m') a)).length = min 4 (s.cfg.cap m' - a) := lanes_length _ _
    rw [State.byte_writeBytes]
    by_cases h : a ≤ i ∧ i < a + min 4 (s.cfg.cap m' - a)
    · rw [dif_pos (by rw [hlen]; exact h), if_pos ⟨rfl, by omega⟩, lanes_getElem _ _ _ (by rw [laneCount]; omega)]
    · rw [dif_neg (by rw [hlen]; exact h), if_neg (by rintro ⟨_, h⟩; omega)]
  · rw [State.byte_writeBytes_ne _ _ _ _ _ hm, if_neg (by simp [hm])]

/-- A write to a window word changes its memory alone. -/
theorem State.writeWindow_sameSurround (s : State) (m : BlockMem) (a : Nat) (v : Word) :
    s.sameSurround (s.writeWindow m a v) := by
  cases m <;> exact ⟨rfl, rfl, rfl, rfl, rfl, rfl⟩

/-- A write to a window word stays inside the capacity. -/
theorem State.writeWindow_wf (s : State) (m : BlockMem) (a : Nat) (v : Word) (ha : a ≤ s.cfg.cap m)
    (h : Memory.wf (s.cfg.cap m) (s.mem m)) : Memory.wf (s.cfg.cap m) ((s.writeWindow m a v).mem m) := by
  rw [State.writeWindow_eq, State.mem_writeBytes_self]
  exact Memory.write_wf h _ _ (by rw [lanes_length, laneCount]; omega)

end Sys2Proof.Machine
end

