-- ==== Sys2Proof/Tests/Slice0.lean ====
section
/-! SUPPORT. The model's own tests. Expected values are those of the spec: 30_encoding.md R91, R92 for words,
95_test_vectors.md for results, 10_state.md, 20_memory.md and 00_scope.md for ranges. The witnesses at the end meet, each
with concrete states, the hypotheses of the statement they name, clause by clause at the edges of its ranges. -/

namespace Sys2Proof.Tests

open Sys2Proof.Machine

/-! ### Words written out from 30_encoding.md R91, R92 -/

theorem test_word_crc : decode 0b00000000000000000000000000000001 = .ok .crc := rfl
theorem test_word_build : decode 0b00000000000000000000000000000010 = .ok .build := rfl
theorem test_word_modulate : decode 0b00000000000000000000000000000011 = .ok .modulate := rfl
theorem test_word_buildmod : decode 0b00000000000000000000000000000100 = .ok .buildmod := rfl
theorem test_word_sreset : decode 0b00000000000000000000000000001111 = .ok .sreset := rfl
theorem test_word_zero_reserved : decode 0x00000000 = .error (.reservedOp 0x0) := rfl
theorem test_word_5_reserved : decode 0x00000005 = .error (.reservedOp 0x5) := rfl
theorem test_word_E_reserved : decode 0x0000000E = .error (.reservedOp 0xE) := rfl
theorem test_word_11_not_crc : decode 0x00000011 = .error (.nonzeroMbz 0x1) := rfl
theorem test_word_1F_not_sreset : decode 0x0000001F = .error (.nonzeroMbz 0x1) := rfl
theorem test_word_top_bit_reserved : decode 0x80000001 = .error (.nonzeroMbz 0x8000000) := rfl
theorem test_table_word_too_wide : decodeTableWord 40 0x100000001 = none := by decide +kernel

/-! ### WellFormed refuses (00_scope.md R7, R8; 20_memory.md R60, R61; 30_encoding.md R95, R96) -/

theorem test_default_build_legal : Config.default.legal = true := by decide
theorem test_rate_not_a_multiple : ({ Config.default with sampleRate := 12001 } : Config).legal = false := by decide
theorem test_rate_too_low : ({ Config.default with sampleRate := 0 } : Config).legal = false := by decide
theorem test_rate_too_high : ({ Config.default with sampleRate := 66000 } : Config).legal = false := by decide
theorem test_payload_cap_zero : ({ Config.default with payloadCap := 0 } : Config).legal = false := by decide
theorem test_payload_cap_too_big : ({ Config.default with payloadCap := 1025 } : Config).legal = false := by decide
theorem test_frame_cap_zero : ({ Config.default with frameCap := 0 } : Config).legal = false := by decide
theorem test_frame_cap_too_big : ({ Config.default with frameCap := 4097 } : Config).legal = false := by decide
theorem test_sample_cap_zero : ({ Config.default with sampleCap := 0 } : Config).legal = false := by decide
theorem test_sample_cap_too_big : ({ Config.default with sampleCap := 65537 } : Config).legal = false := by decide
theorem test_input_outside : (Input.write 0x20000 0).wellFormed Config.default = false := by decide +kernel
theorem test_input_below : (Input.read 3).wellFormed { Config.default with blockBase := 4 } = false := by decide
theorem test_window_word_outside : (HostTarget.window .path 14).wellFormed = false := by decide
theorem test_offset_outside : (HostTarget.offset 0x20000).wellFormed = false := by decide +kernel
theorem test_wrcall_too_long : (HostStmt.wrcall .dst [1, 2, 3, 4, 5, 6, 7]).wellFormed = false := by decide
theorem test_wrbytes_unaligned : (HostStmt.wrbytes .frame 2 [0]).wellFormed = false := by decide
theorem test_wrbytes_past_window : (HostStmt.wrbytes .path 56 [0]).wellFormed = false := by decide
theorem test_rdbytes_past_window : (HostStmt.rdbytes .payload 1024 1).wellFormed = false := by decide

/-! ### Helpers: small states -/

/-- The reset state with other registers and frame bytes. -/
def with_ (r : Regs) (frame : List Byte) : State :=
  { State.reset with regs := r, frameMem := Memory.cells 0 frame }

/-- The state a command leaves. -/
def after (i : Instr) (s : State) : State :=
  match exec i s with
  | .next t => t
  | .fault _ => s
  | .refused _ => s

/-- The registers of frame F1 (95_test_vectors.md L2.3). -/
def regsF1 : Regs :=
  { Regs.reset with
    dstCall0 := 0x53525041, srcCall0 := 0x5030444B, srcCall1 := 0x514F, srcSsid := 11, payloadLen := 3
    preFlags := 2, postFlags := 1 }

/-- The operands of frame F1: payload 3E 48 69. -/
def stateF1 : State := { State.reset with regs := regsF1, payloadMem := Memory.cells 0 [0x3E, 0x48, 0x69] }

/-- The state of the example of 43_control.md R211. -/
def stateDirty : State :=
  { State.reset with
    regs := { Regs.reset with
      irqEn := true, keepModState := true, done := true, errCode := .sampleOverflow, wrBusy := true
      badAccess := true, frameLen := 24, modLevel := false } }

/-! ### One step each (95_test_vectors.md) -/

-- L2.2: "123456789" at 0; 0, 9.
theorem test_crc_check_value :
    (after .crc (with_ { Regs.reset with crcLen := 9 } [0x31, 0x32, 0x33, 0x34, 0x35, 0x36, 0x37, 0x38, 0x39])).readReg
      .crcResult = 0x0000906E := by decide +kernel
-- L2.2: 1000, 25 (sum 1025) is BAD_LEN, STATUS 0x22.
theorem test_crc_past_the_end :
    (after .crc (with_ { Regs.reset with crcOff := 1000, crcLen := 25 } [])).statusWord = 0x22 := by decide +kernel
-- L2.3, F1.
theorem test_build_F1 :
    (after .build stateF1).frameMem = Memory.cells 0
      [0x7E, 0x7E, 0x82, 0xA0, 0xA4, 0xA6, 0x40, 0x40, 0xE0, 0x96, 0x88, 0x60, 0xA0, 0x9E, 0xA2, 0x77, 0x03, 0xF0,
       0x3E, 0x48, 0x69, 0xE0, 0x36, 0x7E] := by decide +kernel
-- L2.3: PATH_LEN = 8 is BAD_LEN, FRAME_LEN 0.
theorem test_build_bad_path :
    ((after .build (with_ { Regs.reset with pathLen := 8, frameLen := 5 } [])).statusWord,
     (after .build (with_ { Regs.reset with pathLen := 8, frameLen := 5 } [])).regs.frameLen) = (0x22, 0) := by
  decide +kernel
-- L2.4: 7E, region -1, 1: 90 samples, phase 10000, level 0.
theorem test_modulate_stuffs :
    let t := after .modulate (with_ { Regs.reset with
      frameLen := 1, startStuff := 0xFFFF, endStuff := 1, sampleMax := 0x10000 } [0x7E])
    (t.regs.sampleCount, t.regs.modPhase, t.regs.modLevel, t.sampleMem.length) = (90, 10000, false, 90) := by
  decide +kernel
-- L2.4: 00, no region, SAMPLE_MAX 79: SAMPLE_OVERFLOW, 70 samples written, phase 4000, level 1.
theorem test_modulate_aborts :
    let t := after .modulate (with_ { Regs.reset with
      frameLen := 1, startStuff := 0xFFFF, endStuff := 0xFFFF, sampleMax := 79 } [0x00])
    (t.statusWord, t.regs.sampleCount, t.regs.modPhase, t.regs.modLevel, t.sampleMem.length) =
      (0x42, 0, 4000, true, 70) := by decide +kernel
-- L2.5: F1 with SAMPLE_MAX 65536: 1930 samples, phase 0, level 0.
theorem test_buildmod_F1 :
    let t := after .buildmod { stateF1 with regs := { regsF1 with sampleMax := 0x10000 } }
    (t.statusWord, t.regs.frameLen, t.regs.sampleCount, t.regs.modPhase, t.regs.modLevel) =
      (0x02, 24, 1930, 0, false) := by decide +kernel
-- L2.5: F1 with PATH_LEN 8: BUILD's error, no samples.
theorem test_buildmod_build_fails :
    let t := after .buildmod { stateF1 with regs := { regsF1 with pathLen := 8 } }
    (t.statusWord, t.regs.frameLen, t.regs.sampleCount, t.sampleMem) = (0x22, 0, 0, []) := by decide +kernel
-- L2.6: the example of R211.
theorem test_sreset_before : (stateDirty.statusWord, stateDirty.ctrlWord) = (0x342, 0x3) := by decide +kernel
theorem test_sreset_after : (after .sreset stateDirty).regs = Regs.reset := by decide +kernel
-- 42_afsk.md R171: the four halfway cases of the default rate, and the peaks.
theorem test_sine_halves_and_peaks :
    (sine 12000 1000, sine 12000 5000, sine 12000 7000, sine 12000 11000, sine 12000 3000, sine 12000 9000) =
      (191, 191, 64, 64, 254, 0) := by decide +kernel
-- L3.1: the transfers of WRBYTES FRAME, 0, "123456789".
theorem test_wrbytes_transfers :
    HostStmt.expand Config.default (.wrbytes .frame 0 [0x31, 0x32, 0x33, 0x34, 0x35, 0x36, 0x37, 0x38, 0x39]) =
      [.write 0x1000 0x34333231, .write 0x1004 0x38373635, .write 0x1008 0x00000039] := by decide +kernel
-- L3.2: the transfers of WRCALL SRC, "KD0POQ".
theorem test_wrcall_transfers :
    HostStmt.expand Config.default (.wrcall .src [0x4B, 0x44, 0x30, 0x50, 0x4F, 0x51]) =
      [.write 0x24 0x5030444B, .write 0x28 0x0000514F] := by decide +kernel
-- 20_memory.md R64: lane order of a window read (95_test_vectors.md L3.2: RDBYTES FRAME reads 0xA0827E7E first).
theorem test_window_lanes :
    (with_ Regs.reset [0x7E, 0x7E, 0x82, 0xA0]).peek (.window .frame 0) = 0xA0827E7E := by decide +kernel
-- withFetchWord: the next step runs the word (SRESET by a CMD write, a reserved word by its completion step).
theorem test_fetch_sreset :
    step (stateDirty.withFetchWord 32 0xF) = .next { stateDirty with regs := Regs.reset } := by rfl
theorem test_fetch_reserved :
    step (State.reset.withFetchWord 32 0x11) = .next (State.reset.complete .badCmd) := by rfl

/-! ### Witnesses: steps -/

/-- The reset state with things to do. -/
def asked (ins : List Input) : State := { State.reset with inputs := ins }

/-- The same with a command in flight. -/
def flying (w : Word) (hold : Nat) (ins : List Input) : State :=
  { State.reset with inputs := ins, inFlight := some { word := w, hold := hold } }

-- StepRunsTheDecodedCommand: due by its hold, and due because nothing more comes.
theorem witness_step_runs_hold :
    (flying 1 0 [.wait]).cfg.legal = true ∧ (flying 1 0 [.wait]).inFlight = some { word := 1, hold := 0 } ∧
    decode 1 = .ok .crc ∧ (0 = 0 ∨ (flying 1 0 [.wait]).inputs = []) := by decide
theorem witness_step_runs_idle_outside :
    (flying 4 7 []).cfg.legal = true ∧ (flying 4 7 []).inFlight = some { word := 4, hold := 7 } ∧
    decode 4 = .ok .buildmod ∧ (7 = 0 ∨ (flying 4 7 []).inputs = []) := by decide
-- CommandWriteIssues: SRESET at offset 8, a word at offset 11, and a write while busy.
theorem witness_command_write_sreset :
    let s := asked [.write 8 0xF]
    s.cfg.legal = true ∧ s.inputs = .write 8 0xF :: [] ∧ s.cfg.blockBase ≤ 8 ∧ (8 - s.cfg.blockBase) / 4 = 2 ∧
    s.inFlight = none := by decide
theorem witness_command_write_issue :
    let s := asked [.write 11 0xE]
    s.cfg.legal = true ∧ s.inputs = .write 11 0xE :: [] ∧ s.cfg.blockBase ≤ 11 ∧ (11 - s.cfg.blockBase) / 4 = 2 ∧
    s.inFlight = none ∧ (0xE : Word) ≠ 0x0000000F := by decide
theorem witness_command_write_busy :
    let s := flying 2 1 [.write 8 1]
    s.cfg.legal = true ∧ s.inputs = .write 8 1 :: [] ∧ s.cfg.blockBase ≤ 8 ∧ (8 - s.cfg.blockBase) / 4 = 2 ∧
    s.inFlight = some { word := 2, hold := 1 } ∧ 1 ≠ 0 := by decide
-- ReservedWordCompletesWithBadCmd: the edges of the reserved ranges, at the write and at the completion step.
theorem witness_reserved_words :
    ∀ w ∈ ([0x0, 0x5, 0xE, 0x10, 0xFFFFFFFF] : List Word), w ≠ 0x1 ∧ w ≠ 0x2 ∧ w ≠ 0x3 ∧ w ≠ 0x4 ∧ w ≠ 0xF := by
  simp
theorem witness_reserved_word (w : Word) :
    (asked [.write 8 w]).inFlight = none ∧ (asked [.write 8 w]).inputs = .write (0 + 8) w :: [] ∧
    (asked [.write 8 w]).cfg.blockBase = 0 ∧ (flying w 0 []).inFlight = some { word := w, hold := 0 } :=
  ⟨rfl, rfl, rfl, rfl⟩
-- InFlightCommandCompletes and WaitEndsAfterTheCompletion.
theorem witness_in_flight :
    let s := flying 3 2 [.wait, .write 0 0, .read 0x1FFFF]
    s.cfg.legal = true ∧ s.inFlight = some { word := 3, hold := 2 } ∧ (3 : Word) ≠ encode .sreset ∧
    ∀ x ∈ s.inputs, x.wellFormed s.cfg = true ∧ x ≠ .rst := by decide +kernel
theorem witness_wait :
    let s := flying 3 2 [.wait]
    s.cfg.legal = true ∧ s.inFlight = some { word := 3, hold := 2 } ∧ (3 : Word) ≠ encode .sreset ∧
    s.inputs = .wait :: [] := by decide
-- StepKeepsTheInvariant and BuildParametersNeverChange: a good state with a command in flight that steps.
theorem witness_invariant : (flying 2 0 []).Inv ∧ ∃ t, step (flying 2 0 []) = .next t := by
  refine ⟨⟨by decide, Memory.nil_wf _, Memory.nil_wf _, Memory.nil_wf _, Memory.nil_wf _, by decide, by decide,
    by decide, ?_⟩, ⟨_, rfl⟩⟩
  intro c hc
  cases hc
  decide
-- LegalBlockNeverStops.
theorem witness_never_stops :
    (asked [.read 0x1FFFF, .rst]).cfg.legal = true ∧
    ∀ x ∈ (asked [.read 0x1FFFF, .rst]).inputs, x.wellFormed (asked [.read 0x1FFFF, .rst]).cfg = true := by
  decide +kernel
-- RefusesWhatTheSpecRefuses: an illegal build; the first offset past the aperture; the address below the base.
theorem witness_illegal_build :
    ({ State.reset with cfg := { Config.default with sampleRate := 1201 } } : State).cfg.legal = false := by decide
theorem witness_past_aperture (x : Input) :
    (asked [x]).cfg.legal = true ∧ (asked [x]).portNext ∧ (asked [x]).cfg.blockBase + 0x20000 ≤ 0x20000 ∧
    (asked [x]).inputs = x :: [] :=
  ⟨test_default_build_legal, portNext_of_none rfl, Nat.le_of_eq (Nat.zero_add _), rfl⟩
theorem witness_below_aperture :
    let s : State := { asked [.read 3] with cfg := { Config.default with blockBase := 4 } }
    s.cfg.legal = true ∧ s.portNext ∧ 3 < s.cfg.blockBase ∧ s.inputs = .read 3 :: [] :=
  ⟨rfl, portNext_of_none rfl, by decide, rfl⟩
-- IdleBlockKeepsItsState.
theorem witness_idle :
    State.reset.cfg.legal = true ∧ State.reset.inFlight = none ∧ State.reset.inputs = [] := by decide

/-! ### Witnesses: CRC, BUILD -/

-- CrcCommandComputesOrFails: o + n at the capacity and one past it. (CrcChangesOnlyItsResult: any such state.)
theorem witness_crc_in_range :
    let s := with_ { Regs.reset with crcOff := 1000, crcLen := 24 } []
    s.regs.crcOff.toNat + s.regs.crcLen.toNat ≤ s.cfg.frameCap ∧ ∃ t, exec .crc s = .next t := ⟨by decide, _, rfl⟩
theorem witness_crc_out_of_range :
    let s := with_ { Regs.reset with crcOff := 1000, crcLen := 25 } []
    s.cfg.frameCap < s.regs.crcOff.toNat + s.regs.crcLen.toNat := by decide

/-- The largest path and payload of the default build. -/
def stateBig : State :=
  with_ { Regs.reset with pathLen := 56, payloadLen := 256, preFlags := 255, postFlags := 255 } []

-- BuildWritesTheFrameLayout, SsidBytesAsStored, AddressExtensionBitMarksTheLastAddressByte, BuiltFrameHasAGoodFcs,
-- BuildChangesOnlyTheFrame: the largest operands, and a frame of exactly the capacity.
theorem witness_build_largest : stateBig.buildFits ∧ ∃ t, exec .build stateBig = .next t :=
  ⟨⟨by decide, by decide, by decide, by decide⟩, _, rfl⟩
theorem witness_build_exact :
    let s : State := { State.reset with cfg := { Config.default with frameCap := 18 } }
    s.buildFits ∧ s.frameTotal = 18 := ⟨⟨by decide, by decide, by decide, by decide⟩, by decide⟩
-- BuildFailsWithoutWriting, clause by clause: 57, 8, payload 257, total 18 over a capacity of 17.
theorem witness_build_path_long : 56 < (with_ { Regs.reset with pathLen := 57 } []).pathBytes := by decide
theorem witness_build_path_ragged : (with_ { Regs.reset with pathLen := 8 } []).pathBytes % 7 ≠ 0 := by decide
theorem witness_build_payload_long :
    let s := with_ { Regs.reset with payloadLen := 257 } []
    s.cfg.payloadCap < s.payloadBytes := by decide
theorem witness_build_frame_long :
    let s : State := { State.reset with cfg := { Config.default with frameCap := 17 } }
    s.pathBytes ≤ 56 ∧ s.pathBytes % 7 = 0 ∧ s.payloadBytes ≤ s.cfg.payloadCap ∧ s.cfg.frameCap < s.frameTotal := by
  decide

/-! ### Witnesses: MODULATE, BUILDMOD -/

/-- Byte 1F with 9 cells when it is in the region and 8 when it is not. -/
def state1F (max : BitVec 17) (lo hi : BitVec 16) : State :=
  with_ { Regs.reset with frameLen := 1, startStuff := lo, endStuff := hi, sampleMax := max } [0x1F]

-- ModulateSendsTheLineCodeAsTones: exactly room for the 9 cells, and one sample short of it.
theorem witness_modulate_exact :
    let s := state1F 90 0xFFFF 1
    s.cfg.legal = true ∧ s.frameCount ≤ s.cfg.frameCap ∧ s.sampleLimit ≤ s.cfg.sampleCap ∧
    s.lineCells.length ≤ s.sampleLimit / s.cfg.spb := by decide +kernel
theorem witness_modulate_short :
    let s := state1F 89 0xFFFF 1
    s.cfg.legal = true ∧ s.frameCount ≤ s.cfg.frameCap ∧ s.sampleLimit ≤ s.cfg.sampleCap ∧
    s.sampleLimit / s.cfg.spb < s.lineCells.length := by decide +kernel
-- ModulateRejectsBadLengths: each length one past its capacity.
theorem witness_modulate_long_frame :
    let s := with_ { Regs.reset with frameLen := 1025 } []
    s.cfg.frameCap < s.frameCount := by decide
theorem witness_modulate_long_samples :
    let s := with_ { Regs.reset with sampleMax := 65537 } []
    s.cfg.sampleCap < s.sampleLimit := by decide
-- SampleCountCountsTheCells, ModulateChangesOnlyTheSamples, ReceiverRecoversTheFrame: a success with the byte inside the
-- region, and one with it outside.
theorem witness_receiver_inside :
    let s := state1F 90 0xFFFF 1
    s.cfg.legal = true ∧ (after .modulate s).regs.errCode = .noError ∧ (∃ t, exec .modulate s = .next t) ∧
    ∀ i < s.frameCount, s.stuffStart < (i : Int) ∧ (i : Int) < s.stuffEnd :=
  ⟨by decide, by decide +kernel, ⟨_, rfl⟩, by decide⟩
theorem witness_receiver_outside :
    let s := state1F 80 0 1
    s.cfg.legal = true ∧ (after .modulate s).regs.errCode = .noError ∧ (∃ t, exec .modulate s = .next t) ∧
    ∀ i < s.frameCount, ¬(s.stuffStart < (i : Int) ∧ (i : Int) < s.stuffEnd) :=
  ⟨by decide, by decide +kernel, ⟨_, rfl⟩, by decide⟩
-- ReceiverRecoversTheFrame: a frame partly inside the region (95_test_vectors.md L2.4: 7E FF 7E, 0, 2, 250 samples), and
-- what its receiver is told and gets.
theorem witness_receiver_part :
    let s := with_ { Regs.reset with frameLen := 3, startStuff := 0, endStuff := 2, sampleMax := 250 } [0x7E, 0xFF, 0x7E]
    s.cfg.legal = true ∧ (after .modulate s).regs.errCode = .noError ∧ (after .modulate s).regs.sampleCount = 250 ∧
    (∃ t, exec .modulate s = .next t) ∧
    s.regionBits = List.replicate 8 false ++ List.replicate 8 true ++ List.replicate 8 false :=
  ⟨by decide, by decide +kernel, by decide +kernel, ⟨_, rfl⟩, by decide +kernel⟩
-- 95_test_vectors.md L1.4: the cells 00000001 111110000 11111110 of that frame, received with byte 1 in the region.
theorem test_receive_part :
    receive true 0 (List.replicate 8 false ++ List.replicate 8 true ++ List.replicate 8 false)
      [false, false, false, false, false, false, false, true, true, true, true, true, true, false, false, false, false,
       true, true, true, true, true, true, true, false] =
    [false, true, true, true, true, true, true, false, true, true, true, true, true, true, true, true,
     false, true, true, true, true, true, true, false] := by decide
-- SampleFractionIsAccurate, SamplesNeverExceed254: the edges of the legal rates; each of the four twelfths.
theorem witness_rates :
    ({ Config.default with sampleRate := 1200 } : Config).legal = true ∧
    ({ Config.default with sampleRate := 64800 } : Config).legal = true ∧ 1199 < 1200 ∧ 64799 < 64800 := by decide
theorem witness_twelfths :
    12 * 100 = 1200 ∧ 12 * 500 = 5 * 1200 ∧ 12 * 700 = 7 * 1200 ∧ 12 * 1100 = 11 * 1200 ∧ 1100 < 1200 := by decide
-- SineIsExactAtTheDefaultRate.
theorem witness_last_phase : 11999 < 12000 := by decide
-- BuildmodIsBuildThenModulate: BUILD succeeds, and BUILD fails.
theorem witness_buildmod_both :
    (after .build State.reset).regs.errCode = .noError ∧
    (after .build (with_ { Regs.reset with pathLen := 8 } [])).regs.errCode ≠ .noError := by decide +kernel
-- BuildmodSucceedsWhenItFits: F5 (18 bytes, 144 bits) with room for exactly 144 + 28 cells. (The same state, and the
-- failing one above, are states of BuildmodChangesOnlyFrameAndSamples.)
theorem witness_buildmod_room :
    let s := with_ { Regs.reset with sampleMax := 1720 } []
    s.cfg.legal = true ∧ s.buildFits ∧ s.sampleLimit ≤ s.cfg.sampleCap ∧
    s.cfg.spb * (8 * s.frameTotal + 8 * s.frameTotal / 5) = s.sampleLimit ∧ ∃ t, exec .buildmod s = .next t :=
  ⟨by decide, ⟨by decide, by decide, by decide, by decide⟩, by decide, by decide, _, rfl⟩

/-! ### Witnesses: reset, registers -/

-- RstAbandonsAndResets and SresetAgainstRst: idle, and with a command in flight that is abandoned or kept.
theorem witness_rst_idle :
    (asked [.rst]).cfg.legal = true ∧ (asked [.rst]).portNext ∧ (asked [.rst]).inputs = .rst :: [] ∧
    ∃ t, step (asked [.rst]) = .next t := ⟨rfl, portNext_of_none rfl, rfl, _, rfl⟩
theorem witness_rst_busy :
    (flying 2 1 [.rst]).cfg.legal = true ∧ (flying 2 1 [.rst]).portNext ∧ (flying 2 1 [.rst]).inputs = .rst :: [] :=
  ⟨rfl, portNext_of_hold rfl (by decide), rfl⟩
theorem witness_sreset_busy :
    let s := flying 2 1 [.write 8 0xF]
    s.cfg.legal = true ∧ s.inFlight = some { word := 2, hold := 1 } ∧ 1 ≠ 0 ∧
    s.inputs = .write (s.cfg.blockBase + 8) 0xF :: [] := by decide
-- RegistersReadBackTheirBits: a register of each mask.
theorem witness_masks :
    rwMask .ctrl = some 0x3 ∧ rwMask .preFlags = some 0xFF ∧ rwMask .dstCall0 = some 0xFFFFFFFF ∧
    rwMask .dstCall1 = some 0xFFFF ∧ rwMask .sampleMax = some 0x1FFFF ∧ rwMask .modLevel = some 0x1 := by decide
-- IdleRegisterWriteReachesItsRegister, IdleRegisterReadReturnsItsValue: the first and the last register, k = 0 and 3.
theorem witness_register_write :
    let s := asked [.write 0x5F 1]
    s.cfg.legal = true ∧ s.inFlight = none ∧ Reg.modLevel ≠ .cmd ∧ 3 < 4 ∧
    s.inputs = .write (s.cfg.blockBase + regOffset .modLevel + 3) 1 :: [] ∧ Reg.id ≠ .modLevel := by decide
theorem witness_register_read :
    let s := asked [.read 0]
    s.cfg.legal = true ∧ s.inFlight = none ∧ 0 < 4 ∧ s.inputs = .read (s.cfg.blockBase + regOffset .id + 0) :: [] := by
  decide
-- StatusWriteClearsWhereOne, PhaseWriteIsReduced (any legal build).
theorem witness_status_write :
    let s := { stateDirty with inputs := [.write 0xC 0x302] }
    s.cfg.legal = true ∧ s.inFlight = none ∧ s.inputs = .write (s.cfg.blockBase + 0xC) 0x302 :: [] := by decide
-- InterruptFollowsDone, NoCommandReadsStatus, CommandsIgnoreTheHostSide: a command that is not SRESET, from a state with
-- its STATUS bits set; SRESET itself.
theorem witness_command_runs : Instr.crc ≠ .sreset ∧ (∃ t, exec .crc stateDirty = .next t) ∧
    ∃ t, exec .sreset stateDirty = .next t := ⟨by decide, ⟨_, rfl⟩, _, rfl⟩

/-! ### Witnesses: the host port -/

/-- A build whose capacities are no multiples of 4. -/
def oddBuild : Config := { Config.default with payloadCap := 254, frameCap := 1021, sampleCap := 65533 }

-- AddressMapIsTheSpecsTable: the last byte of each row, and the first word past each capacity.
theorem witness_address_rows :
    oddBuild.legal = true ∧ 0x1FFFF < 0x20000 ∧
    locate oddBuild 0x5F = .register .modLevel ∧ locate oddBuild 0x60 = .reserved ∧ locate oddBuild 0x3FF = .reserved ∧
    locate oddBuild 0x400 = .window .path 0 ∧ locate oddBuild 0x437 = .window .path 52 ∧
    locate oddBuild 0x438 = .reserved ∧ locate oddBuild 0x7FF = .reserved ∧
    locate oddBuild 0x8FF = .window .payload 252 ∧ locate oddBuild 0x900 = .reserved ∧
    locate oddBuild 0xFFF = .reserved ∧ locate oddBuild 0x13FF = .window .frame 1020 ∧
    locate oddBuild 0x1400 = .reserved ∧ locate oddBuild 0xFFFF = .reserved ∧
    locate oddBuild 0x10000 = .window .sample 0 ∧ locate oddBuild 0x1FFFF = .window .sample 65532 := by decide +kernel
-- WindowWriteStoresItsLanes, WindowReadReturnsItsLanes: the word that straddles the end of FRAME_MEM.
theorem witness_window_straddle :
    let s : State := { asked [.write 0x13FC 0xAABBCCDD] with cfg := oddBuild }
    let r : State := { asked [.read 0x13FC] with cfg := oddBuild }
    s.cfg.legal = true ∧ s.inFlight = none ∧ s.inputs = .write 0x13FC 0xAABBCCDD :: [] ∧ s.cfg.decodes 0x13FC = true ∧
    locate s.cfg (0x13FC - s.cfg.blockBase) = .window .frame 1020 ∧ r.inputs = .read 0x13FC :: [] := by decide +kernel
-- ReservedOffsetsReadZeroAndFlagWrites: the first reserved offset, read and written.
theorem witness_reserved_offset :
    (asked [.read 0x60]).cfg.legal = true ∧ (asked [.read 0x60]).inFlight = none ∧
    (asked [.read 0x60]).cfg.decodes 0x60 = true ∧
    locate (asked [.read 0x60]).cfg (0x60 - (asked [.read 0x60]).cfg.blockBase) = .reserved ∧
    (asked [.read 0x60]).inputs = .read 0x60 :: [] ∧ (asked [.write 0x60 1]).inputs = .write 0x60 1 :: [] := by
  decide +kernel
-- BusyReadsAreFreeButForThree: a read of each clause. BusyWritesAreDropped: a write to the last byte of the aperture.
theorem witness_busy_reads :
    ∀ a ∈ [3, 4, 0xF, 8, 0x10, 0x1FFFF],
      (flying 2 1 [.read a]).cfg.legal = true ∧ (flying 2 1 [.read a]).inFlight = some { word := 2, hold := 1 } ∧
      (flying 2 1 [.read a]).inputs = .read a :: [] ∧ (flying 2 1 [.read a]).cfg.decodes a = true := by decide +kernel
theorem witness_busy_read_clauses :
    3 / 4 = 0 ∧ 4 / 4 = 1 ∧ 0xF / 4 = 3 ∧ (8 / 4 ≠ 0 ∧ 8 / 4 ≠ 1 ∧ 8 / 4 ≠ 3) ∧
    (0x10 / 4 ≠ 0 ∧ 0x10 / 4 ≠ 1 ∧ 0x10 / 4 ≠ 3) := by decide
theorem witness_busy_write :
    let s := flying 2 1 [.write 0x1FFFF 5]
    s.cfg.legal = true ∧ s.inFlight = some { word := 2, hold := 1 } ∧ 1 ≠ 0 ∧ s.inputs = .write 0x1FFFF 5 :: [] ∧
    s.cfg.decodes 0x1FFFF = true := by decide +kernel
-- WrcallStoresTheCallsign: six characters for DST, none for SRC.
theorem witness_wrcall :
    let d := asked (HostStmt.expand Config.default (.wrcall .dst [1, 2, 3, 4, 5, 6]))
    let e := asked (HostStmt.expand Config.default (.wrcall .src []))
    d.cfg.legal = true ∧ d.inFlight = none ∧ ([1, 2, 3, 4, 5, 6] : List Byte).length ≤ 6 ∧
    d.inputs = HostStmt.expand d.cfg (.wrcall .dst [1, 2, 3, 4, 5, 6]) ++ [] ∧
    e.inputs = HostStmt.expand e.cfg (.wrcall .src []) ++ [] := by decide
-- WrbytesStoresTheBytes: five bytes, padded to eight, that end at the capacity of PATH_MEM.
theorem witness_wrbytes :
    let s := asked (HostStmt.expand Config.default (.wrbytes .path 48 [1, 2, 3, 4, 5]))
    s.cfg.legal = true ∧ s.inFlight = none ∧ 48 % 4 = 0 ∧
    48 + 4 * ((([1, 2, 3, 4, 5] : List Byte).length + 3) / 4) ≤ s.cfg.cap .path ∧
    s.inputs = HostStmt.expand s.cfg (.wrbytes .path 48 [1, 2, 3, 4, 5]) ++ [] := by decide

end Sys2Proof.Tests
end

section
/-! PROOFS. The parameters of the build along a step (00_scope.md R7, R8): one lemma per kind of event. -/

namespace Sys2Proof.Machine

/-- A completion step, of a command or of a reserved word, keeps the parameters. -/
theorem completionStep_cfg {w : Word} {s t : State} (h : completionStep w s = .next t) : t.cfg = s.cfg := by
  rcases completionStep_cases h with ⟨i, _, hexec⟩ | ⟨e, _, rfl⟩
  · obtain ⟨hcfg, _⟩ := exec_sameSurround hexec
    exact hcfg
  · exact s.complete_cfg .badCmd

/-- A write to a window word keeps the parameters. -/
theorem State.writeWindow_cfg (s : State) (m : BlockMem) (i : Nat) (v : Word) :
    (s.writeWindow m i v).cfg = s.cfg := by
  rw [State.writeWindow_eq, State.writeBytes_cfg]

/-- A host write keeps the parameters, wherever it lands. -/
theorem hostWrite_cfg {off : Nat} {v : Word} {s t : State} (h : hostWrite off v s = .next t) : t.cfg = s.cfg := by
  rcases hostWrite_cases h with ⟨_, rfl⟩ | ⟨_, hplace⟩
  · exact s.setWrBusy_cfg
  · rcases hplace with ⟨_, _, rfl⟩ | ⟨_, _, rfl⟩ | ⟨r, _, _, rfl⟩ | ⟨m, i, _, rfl⟩ | ⟨_, rfl⟩
    · exact s.resetRegs_cfg
    · exact accept_cfg s v
    · exact s.writeReg_cfg r v
    · exact s.writeWindow_cfg m i v
    · exact s.setBadAccess_cfg

/-- An event from outside keeps the parameters. -/
theorem inputEvent_cfg {x : Input} {s t : State} (h : inputEvent x s = .next t) : t.cfg = s.cfg := by
  cases x with
  | write addr v =>
    simp only [inputEvent] at h
    split at h
    · rw [hostWrite_cfg h, State.passTransfer_cfg]
    · cases h
  | read addr =>
    simp only [inputEvent] at h
    split at h
    · cases h
      rw [State.hostRead_cfg, State.passTransfer_cfg]
    · cases h
  | wait =>
    simp only [inputEvent] at h
    split at h <;> cases h <;> simp only [State.hostRead_cfg, State.passTransfer_cfg]
  | rst =>
    cases h
    exact s.hardReset_cfg

/-- Settles O11, by the inversion of a step: nothing to do, a completion step, or an event from outside. -/
theorem buildParametersNeverChange : Obligations.BuildParametersNeverChange := by
  intro s t h
  obtain ⟨_, ⟨_, _, rfl⟩ | ⟨c, _, _, hdone⟩ | ⟨x, rest, _, _, hevent⟩⟩ := step_cases h
  · rfl
  · exact completionStep_cfg hdone
  · have hcfg := inputEvent_cfg hevent
    exact hcfg

end Sys2Proof.Machine
end

section
/-! PROOFS. The registers of 10_state.md as the port reads and writes them: the fields of `STATUS` (R26), its W1C
write (R22), the reduction of `MOD_PHASE` (R43), and the state after reset (R49). -/

namespace Sys2Proof.Machine

/-! ### The fields of `STATUS` as read (10_state.md R26) -/

/-- A one-bit field has its bit at its own index and 0 elsewhere. -/
theorem bitAt_getLsbD (k : Nat) (b : Bool) (i : Nat) (hi : i < 32) :
    (bitAt k b).getLsbD i = (decide (i = k) && b) := by
  unfold bitAt
  rw [BitVec.getLsbD_shiftLeft, BitVec.getLsbD_setWidth, BitVec.getLsbD_ofBool]
  by_cases hik : i < k
  · simp [hik, show i ≠ k by omega]
  · simp [hi, hik, show i - k < 32 by omega, show i - k = 0 ↔ i = k by omega]

/-- Every bit of `STATUS`: the four one-bit fields, `ERR_CODE` in [7:4], and 0 elsewhere. -/
theorem State.statusWord_getLsbD (s : State) (i : Nat) (hi : i < 32) :
    s.statusWord.getLsbD i =
      (decide (i = 0) && s.busy || decide (i = 1) && s.regs.done ||
        decide (4 ≤ i) && s.regs.errCode.code.getLsbD (i - 4) ||
        decide (i = 8) && s.regs.wrBusy || decide (i = 9) && s.regs.badAccess) := by
  have hcode : (s.regs.errCode.code.setWidth 32 <<< 4).getLsbD i =
      (decide (4 ≤ i) && s.regs.errCode.code.getLsbD (i - 4)) := by
    rw [BitVec.getLsbD_shiftLeft, BitVec.getLsbD_setWidth]
    by_cases h4 : 4 ≤ i <;> simp [hi, h4, show i - 4 < 32 by omega]
  simp only [State.statusWord, BitVec.getLsbD_or, bitAt_getLsbD _ _ _ hi, hcode]

/-- `ERR_CODE` as read. -/
theorem State.statusWord_errCode (s : State) : s.statusWord.extractLsb' 4 4 = s.regs.errCode.code := by
  ext j hj
  rw [BitVec.getElem_extractLsb', s.statusWord_getLsbD _ (by omega), ← BitVec.getLsbD_eq_getElem]
  simp [show 4 + j ≠ 1 by omega, show 4 + j ≠ 8 by omega, show 4 + j ≠ 9 by omega]

/-- Bits [3:2] of `STATUS` are RAZ. -/
theorem State.statusWord_bits_3_2 (s : State) : s.statusWord.extractLsb' 2 2 = 0 := by
  ext j hj
  rw [BitVec.getElem_extractLsb', s.statusWord_getLsbD _ (by omega)]
  simp [show ¬ 4 ≤ 2 + j by omega, show 2 + j ≠ 1 by omega, show 2 + j ≠ 8 by omega, show 2 + j ≠ 9 by omega]

/-- Bits [31:10] of `STATUS` are RAZ. -/
theorem State.statusWord_bits_31_10 (s : State) : s.statusWord.extractLsb' 10 22 = 0 := by
  ext j hj
  rw [BitVec.getElem_extractLsb', s.statusWord_getLsbD _ (by omega), BitVec.getLsbD_of_ge _ (10 + j - 4) (by omega)]
  simp [show 10 + j ≠ 1 by omega, show 10 + j ≠ 8 by omega, show 10 + j ≠ 9 by omega]

/-- Settles O42, from the value of every bit of `STATUS`. -/
theorem statusReadsItsFields : Obligations.StatusReadsItsFields := by
  intro s
  refine ⟨?_, ?_, s.statusWord_bits_3_2, ?_, ?_, ?_, s.statusWord_bits_31_10⟩
  · exact (s.statusWord_getLsbD 0 (by decide)).trans (by simp [State.busy])
  · exact (s.statusWord_getLsbD 1 (by decide)).trans (by simp)
  · rw [s.statusWord_errCode]
    cases s.regs.errCode <;> rfl
  · exact (s.statusWord_getLsbD 8 (by decide)).trans (by simp)
  · exact (s.statusWord_getLsbD 9 (by decide)).trans (by simp)

/-! ### A register write at the idle port (20_memory.md R60, R62) -/

/-- With nothing in flight, a write to any offset of the word of a register other than `CMD` is the register's own
write. -/
theorem step_writeReg_idle {s : State} {r : Reg} {off : Nat} {v : Word} {rest : List Input}
    (hlegal : s.cfg.legal = true) (hidle : s.inFlight = none) (hr : r ≠ .cmd) (hoff : off / 4 = regOffset r / 4)
    (hin : s.inputs = .write (s.cfg.blockBase + off) v :: rest) :
    step s = .next (({ s with inputs := rest } : State).writeReg r v) := by
  have hword : regOffset r / 4 < 0x8000 := by cases r <;> decide
  have hdec : s.cfg.decodes (s.cfg.blockBase + off) = true :=
    decodes_of_word (by omega) (by rw [Nat.add_sub_cancel_left, hoff]) hword
  have hplace : locate s.cfg off = .register r := locate_register s.cfg off r hoff
  rw [step_port hlegal (portNext_of_none hidle) hin,
    inputEvent_write_idle ({ s with inputs := rest } : State) _ _ hdec hidle]
  simp only [Nat.add_sub_cancel_left, hplace]

/-- A W1C bit is cleared where the written bit is 1 (10_state.md R22). -/
theorem w1c_eq (v : Word) (k : Nat) (old : Bool) : w1c v k old = if v.getLsbD k then false else old := by
  cases h : v.getLsbD k <;> simp [w1c, h]

/-- Settles O45: the write reaches `STATUS`, whose three W1C bits take it. -/
theorem statusWriteClearsWhereOne : Obligations.StatusWriteClearsWhereOne := by
  intro s v rest hlegal hidle hin
  rw [step_writeReg_idle (r := .status) (off := 0xC) hlegal hidle (by decide) rfl hin]
  simp only [State.writeReg, State.writeStatus, w1c_eq]

/-! ### `MOD_PHASE` (10_state.md R43) -/

/-- The value a write leaves in `MOD_PHASE`: the reduced phase fits its 16 bits. -/
theorem phaseWarl_toNat {rate : Nat} (hpos : 0 < rate) (hle : rate ≤ 65536) (v : Word) :
    (phaseWarl rate v).toNat = v.toNat % 65536 % rate := by
  have hlt : v.toNat % 65536 % rate < 65536 := (Nat.mod_lt _ hpos).trans_le hle
  rw [phaseWarl, BitVec.toNat_ofNat, BitVec.toNat_setWidth]
  exact Nat.mod_eq_of_lt hlt

/-- In a legal build the value a write leaves in `MOD_PHASE` is a phase. -/
theorem phaseWarl_lt {c : Config} (hlegal : c.legal = true) (v : Word) :
    (phaseWarl c.sampleRate v).toNat < c.sampleRate := by
  obtain ⟨-, hlow, hhigh, -⟩ := legal_bounds hlegal
  rw [phaseWarl_toNat (by omega) (by omega)]
  exact Nat.mod_lt _ (by omega)

/-- Settles O46: in a legal build `SAMPLE_RATE` is positive and fits 16 bits, so nothing is cut off. -/
theorem phaseWriteIsReduced : Obligations.PhaseWriteIsReduced := by
  intro s v hlegal
  obtain ⟨-, hlow, hhigh, -⟩ := legal_bounds hlegal
  refine ⟨?_, phaseWarl_lt hlegal v⟩
  calc ((s.writeReg .modPhase v).readReg .modPhase).toNat
      = ((phaseWarl s.cfg.sampleRate v).setWidth 32).toNat := rfl
    _ = (phaseWarl s.cfg.sampleRate v).toNat := BitVec.toNat_setWidth_of_le (by decide)
    _ = v.toNat % 65536 % s.cfg.sampleRate := phaseWarl_toNat (by omega) (by omega) v

/-! ### The state after reset (10_state.md R49, 20_memory.md R80) -/

/-- Every register reads its reset value in a state whose registers are reset and with nothing in flight. -/
theorem State.readReg_of_reset {s : State} (hregs : s.regs = Regs.reset) (hidle : s.inFlight = none) (r : Reg) :
    s.readReg r = resetValue r := by
  cases r <;> simp only [State.readReg, State.ctrlWord, State.statusWord, State.busy, hregs, hidle] <;> rfl

/-- Settles O40: the registers hold their reset values and no memory byte has been written. -/
theorem resetValuesAsRead : Obligations.ResetValuesAsRead := by
  refine ⟨State.readReg_of_reset rfl rfl, rfl, rfl, fun m i => ?_⟩
  cases m <;> rfl

end Sys2Proof.Machine
end

section
/-! PROOFS. The invariant of the block along a step (Safety.lean): the part that speaks of data and not of the command
in flight, what each command does to it, and what each event from outside does to it. -/

namespace Sys2Proof.Machine

/-! ### The invariant of the data -/

/-- The clauses of `State.Inv` on the build, the memories, `MOD_PHASE` and `SAMPLE_COUNT`: all but the clause on the
command in flight. -/
structure State.DataInv (s : State) : Prop where
  build      : s.cfg.legal = true
  mems       : ∀ m, Memory.wf (s.cfg.cap m) (s.mem m)
  phase      : s.regs.modPhase.toNat < s.cfg.sampleRate
  count      : s.regs.sampleCount.toNat ≤ s.cfg.sampleCap
  wholeCells : s.regs.sampleCount.toNat % s.cfg.spb = 0

theorem State.Inv.dataInv {s : State} (h : s.Inv) : s.DataInv where
  build := h.build
  mems := by
    intro m
    cases m
    · exact h.path
    · exact h.payload
    · exact h.frame
    · exact h.sample
  phase := h.phase
  count := h.count
  wholeCells := h.wholeCells

/-- The invariant from its data part and its clause on the command in flight. -/
theorem State.DataInv.inv {s : State} (h : s.DataInv)
    (hflight : ∀ c, s.inFlight = some c →
      c.word ≠ encode .sreset ∧ s.regs.done = false ∧ s.regs.errCode = .noError) : s.Inv where
  build := h.build
  path := h.mems .path
  payload := h.mems .payload
  frame := h.mems .frame
  sample := h.mems .sample
  phase := h.phase
  count := h.count
  wholeCells := h.wholeCells
  flight := hflight

/-- With nothing in flight the invariant is its data part. -/
theorem State.DataInv.inv_of_idle {s : State} (h : s.DataInv) (hidle : s.inFlight = none) : s.Inv :=
  h.inv fun c hc => by rw [hidle] at hc; cases hc

/-- The data part depends on the build, the memories and two registers alone. -/
theorem State.DataInv.congr {s : State} (h : s.DataInv) (t : State) (hcfg : t.cfg = s.cfg)
    (hmem : ∀ m, t.mem m = s.mem m) (hphase : t.regs.modPhase = s.regs.modPhase)
    (hcount : t.regs.sampleCount = s.regs.sampleCount) : t.DataInv where
  build := by rw [hcfg]; exact h.build
  mems m := by rw [hcfg, hmem]; exact h.mems m
  phase := by rw [hcfg, hphase]; exact h.phase
  count := by rw [hcfg, hcount]; exact h.count
  wholeCells := by rw [hcfg, hcount]; exact h.wholeCells

/-- Phase 0 and sample count 0 meet the data part, in a legal build with canonical memories. -/
theorem State.dataInv_of_zero {t : State} (hlegal : t.cfg.legal = true)
    (hmem : ∀ m, Memory.wf (t.cfg.cap m) (t.mem m)) (hphase : t.regs.modPhase = 0)
    (hcount : t.regs.sampleCount = 0) : t.DataInv where
  build := hlegal
  mems := hmem
  phase := by
    obtain ⟨-, hlow, -⟩ := legal_bounds hlegal
    have hzero : t.regs.modPhase.toNat = 0 := by rw [hphase]; rfl
    omega
  count := by simp [hcount]
  wholeCells := by simp [hcount]

/-- Bytes stored inside the capacity of their memory keep the data part. -/
theorem State.DataInv.writeBytes {s : State} (h : s.DataInv) (m : BlockMem) (i : Nat) (bs : List Byte)
    (hfit : i + bs.length ≤ s.cfg.cap m) : (s.writeBytes m i bs).DataInv where
  build := by rw [State.writeBytes_cfg]; exact h.build
  mems m' := by
    rw [State.writeBytes_cfg]
    by_cases hm : m' = m
    · subst hm
      rw [State.mem_writeBytes_self]
      exact Memory.write_wf (h.mems m') i bs hfit
    · rw [State.mem_writeBytes_ne s m m' i bs hm]
      exact h.mems m'
  phase := by rw [State.writeBytes_cfg, State.writeBytes_regs]; exact h.phase
  count := by rw [State.writeBytes_cfg, State.writeBytes_regs]; exact h.count
  wholeCells := by rw [State.writeBytes_cfg, State.writeBytes_regs]; exact h.wholeCells

/-! ### The state after a reset (10_state.md R49) -/

/-- SRESET keeps the memories and clears the two registers (43_control.md R211). -/
theorem State.DataInv.resetRegs {s : State} (h : s.DataInv) : s.resetRegs.DataInv :=
  State.dataInv_of_zero h.build (fun m => by rw [State.resetRegs_mem]; exact h.mems m) rfl rfl

/-- `rst` leaves no byte listed in any memory (70_reset_and_hazards.md R261). -/
theorem State.DataInv.hardReset {s : State} (h : s.DataInv) : s.hardReset.DataInv :=
  State.dataInv_of_zero h.build (fun m => by cases m <;> exact Memory.nil_wf _) rfl rfl

/-- Settles O10: the default build is legal, no byte is listed, and the two registers are 0. -/
theorem resetMeetsTheInvariant : Obligations.ResetMeetsTheInvariant := by
  have hdata : State.reset.DataInv :=
    State.dataInv_of_zero (by decide) (fun m => by cases m <;> exact Memory.nil_wf _) rfl rfl
  exact hdata.inv_of_idle rfl

/-! ### The commands -/

theorem State.DataInv.complete {s : State} (h : s.DataInv) (e : ErrCode) : (s.complete e).DataInv :=
  h.congr _ rfl (fun m => s.complete_mem e m) rfl rfl

theorem State.DataInv.clearSampleCount {s : State} (h : s.DataInv) : s.clearSampleCount.DataInv where
  build := h.build
  mems m := by rw [State.clearSampleCount_mem]; exact h.mems m
  phase := h.phase
  count := Nat.zero_le _
  wholeCells := Nat.zero_mod _

/-- CRC changes neither memory nor the two registers. -/
theorem crcBody_dataInv {s : State} (h : s.DataInv) : (crcBody s).1.DataInv := by
  rcases crcBody_cases s with ⟨-, hbody⟩ | ⟨-, hbody⟩ <;> rw [hbody]
  · exact h
  · exact h.congr _ rfl (fun m => s.mem_withRegs _ m) rfl rfl

/-- A BUILD whose checks pass stores its T bytes inside `FRAME_CAP` (41_framer.md R149). -/
theorem State.DataInv.built {s : State} (h : s.DataInv) (hfits : s.buildFits) : s.built.DataInv := by
  obtain ⟨-, -, -, htotal⟩ := hfits
  have hwrite : (s.writeBytes .frame 0 s.frameBytes).DataInv :=
    h.writeBytes .frame 0 s.frameBytes (by rw [State.frameBytes_length, Nat.zero_add]; exact htotal)
  exact hwrite.congr _ rfl (fun m => State.mem_withRegs _ _ m) rfl rfl

theorem buildBody_dataInv {s : State} (h : s.DataInv) : (buildBody s).1.DataInv := by
  rcases buildBody_cases s with ⟨-, e, -, hbody⟩ | ⟨hfits, hbody⟩ <;> rw [hbody]
  · exact h.congr _ rfl (fun m => s.setFrameLen_mem 0 m) rfl rfl
  · exact h.built hfits

/-- The phase a run starts from is a phase (42_afsk.md R179). -/
theorem State.DataInv.startPhase_lt {s : State} (h : s.DataInv) : s.startPhase < s.cfg.sampleRate := by
  have hphase := h.phase
  unfold State.startPhase
  split <;> omega

/-- What a run that sent whole cells inside MAX leaves, `SAMPLE_COUNT` being 0 or the number of samples sent
(42_afsk.md R180, R181). -/
theorem State.DataInv.modLeave {s : State} (h : s.DataInv) {cells : List Bool} {m : Mod} {n : Nat}
    (hsent : Mod.sent s.modEnv s.modStart cells m) (hroom : s.cfg.spb * cells.length ≤ s.cfg.sampleCap)
    (hn : n = 0 ∨ n = s.cfg.spb * cells.length) : (s.modLeave m n).DataInv := by
  obtain ⟨-, hlow, hhigh, -, -, -, -, -, hcap⟩ := legal_bounds h.build
  obtain ⟨-, hout, hphase⟩ := hsent
  rw [s.modStart_eq] at hout hphase
  have hlen : m.out.reverse.length = s.cfg.spb * cells.length := by
    rw [hout, List.append_nil, List.reverse_reverse, tones_length]
    rfl
  have hlt : m.phase < s.cfg.sampleRate := by
    rw [hphase]
    exact tonesPhase_lt _ _ _ _ (Nat.lt_of_lt_of_le (by decide) hlow) h.startPhase_lt
  have hcount : (BitVec.ofNat 17 n).toNat = n := by
    rw [BitVec.toNat_ofNat]
    exact Nat.mod_eq_of_lt (by omega)
  have hmems : (s.writeBytes .sample 0 m.out.reverse).DataInv :=
    h.writeBytes .sample 0 m.out.reverse (by rw [hlen, Nat.zero_add]; exact hroom)
  constructor
  case build => exact h.build
  case mems => exact fun x => hmems.mems x
  case phase =>
    rw [State.modLeave_regs, State.modLeave_cfg, BitVec.toNat_ofNat]
    exact (Nat.mod_le _ _).trans_lt hlt
  case count =>
    rw [State.modLeave_regs, State.modLeave_cfg, hcount]
    omega
  case wholeCells =>
    rw [State.modLeave_regs, State.modLeave_cfg, hcount]
    rcases hn with rfl | rfl
    · exact Nat.zero_mod _
    · exact Nat.mul_mod_right _ _

/-- MODULATE fails on a length, ends, or is aborted; the cells it has sent lie inside MAX, hence in `SAMPLE_CAP`. -/
theorem modulateBody_dataInv {s : State} (h : s.DataInv) : (modulateBody s).1.DataInv := by
  rcases modulateBody_cases s with ⟨-, hbody⟩ | ⟨-, hlimit, hbody⟩ <;> rw [hbody]
  · exact h.clearSampleCount
  · have hzero : s.modStart.n = 0 := by rw [s.modStart_eq]
    rcases Mod.run_cases s.modEnv s.inputBits s.modStart (spb_pos h.build) (by rw [hzero]; exact Nat.zero_le _) with
      ⟨hfit, m, hrun, hsent, -⟩ | ⟨pre, post, c, m, -, hfit, -, hrun, hsent, -⟩
    all_goals
      rw [hzero, Nat.zero_add] at hfit
      rw [hrun]
    · have hn : m.n = s.cfg.spb * (lineCode s.modStart.level s.modStart.ones s.inputBits).length := by
        rw [hsent.1, hzero, Nat.zero_add]
        rfl
      exact h.modLeave hsent (hfit.trans hlimit) (.inr hn)
    · exact h.modLeave hsent (hfit.trans hlimit) (.inl rfl)

/-- BUILDMOD is a failed BUILD that clears `SAMPLE_COUNT`, or MODULATE on what BUILD left (43_control.md R210). -/
theorem buildmodBody_dataInv {s : State} (h : s.DataInv) : (buildmodBody s).1.DataInv := by
  have hbuild := buildBody_dataInv h
  unfold buildmodBody
  split
  next t heq =>
    rw [heq] at hbuild
    exact modulateBody_dataInv hbuild
  next t c _ heq =>
    rw [heq] at hbuild
    exact hbuild.clearSampleCount

/-- Every command leads to a state that meets the invariant, whatever was in flight. -/
theorem exec_inv {i : Instr} {s t : State} (h : s.DataInv) (hexec : exec i s = .next t) : t.Inv := by
  refine State.DataInv.inv_of_idle ?_ (exec_inFlight hexec)
  cases i <;> cases hexec
  case crc => exact (crcBody_dataInv h).complete _
  case build => exact (buildBody_dataInv h).complete _
  case modulate => exact (modulateBody_dataInv h).complete _
  case buildmod => exact (buildmodBody_dataInv h).complete _
  case sreset => exact h.resetRegs

/-- A completion step, of a command or of a reserved word, leads to a state that meets the invariant. -/
theorem completionStep_inv {w : Word} {s t : State} (h : s.DataInv) (hstep : completionStep w s = .next t) :
    t.Inv := by
  rcases completionStep_cases hstep with ⟨i, -, hexec⟩ | ⟨e, -, rfl⟩
  · exact exec_inv h hexec
  · exact (h.complete .badCmd).inv_of_idle rfl

/-! ### Events from outside -/

/-- `SAMPLE_COUNT` is RO to the host (10_state.md R39). -/
theorem State.writeReg_sampleCount (s : State) (r : Reg) (v : Word) :
    (s.writeReg r v).regs.sampleCount = s.regs.sampleCount := by cases r <;> rfl

/-- `MOD_PHASE` changes by its own write alone (10_state.md R43). -/
theorem State.writeReg_modPhase (s : State) (r : Reg) (v : Word) :
    (s.writeReg r v).regs.modPhase = if r = .modPhase then phaseWarl s.cfg.sampleRate v else s.regs.modPhase := by
  cases r <;> rfl

/-- A register write keeps the data part: the phase it may store is reduced. -/
theorem State.DataInv.writeReg {s : State} (h : s.DataInv) (r : Reg) (v : Word) : (s.writeReg r v).DataInv where
  build := by rw [State.writeReg_cfg]; exact h.build
  mems m := by rw [State.writeReg_cfg, State.writeReg_mem]; exact h.mems m
  phase := by
    rw [State.writeReg_cfg, State.writeReg_modPhase]
    split
    · exact phaseWarl_lt h.build v
    · exact h.phase
  count := by rw [State.writeReg_cfg, State.writeReg_sampleCount]; exact h.count
  wholeCells := by rw [State.writeReg_cfg, State.writeReg_sampleCount]; exact h.wholeCells

/-- A write to a window word stores the lanes below the capacity alone (20_memory.md R63). -/
theorem State.DataInv.writeWindow {s : State} (h : s.DataInv) {m : BlockMem} {i : Nat} (hi : i < s.cfg.cap m)
    (v : Word) : (s.writeWindow m i v).DataInv := by
  rw [State.writeWindow_eq]
  exact h.writeBytes m i _ (by rw [lanes_length, laneCount]; omega)

/-- A window place begins below the capacity of its memory. -/
theorem locate_window_lt {c : Config} {off : Nat} {m : BlockMem} {i : Nat} (h : locate c off = .window m i) :
    i < c.cap m := by
  rcases locate_cases c off with ⟨r, hr, -⟩ | ⟨m', i', hm, hi, -⟩ | hres
  · rw [h] at hr; cases hr
  · rw [h] at hm; cases hm; exact hi
  · rw [h] at hres; cases hres

/-- A word that does not decode to SRESET is not its word. -/
theorem ne_encode_sreset {v : Word} (h : decode v ≠ .ok .sreset) : v ≠ encode .sreset := by
  rintro rfl
  exact h (by decide)

/-- An issued command is not SRESET and has `DONE` and `ERR_CODE` cleared (60_exceptions.md R230). -/
theorem State.DataInv.accept {s : State} (h : s.DataInv) {v : Word} (hv : decode v ≠ .ok .sreset) :
    (accept v s).Inv := by
  refine (h.congr (Machine.accept v s) rfl (fun m => accept_mem s v m) rfl rfl).inv fun c hc => ?_
  cases hc
  exact ⟨ne_encode_sreset hv, rfl, rfl⟩

/-- A host write, wherever it lands, keeps the invariant. -/
theorem hostWrite_inv {off : Nat} {v : Word} {s t : State} (h : s.Inv) (hwrite : hostWrite off v s = .next t) :
    t.Inv := by
  have hdata := h.dataInv
  rcases hostWrite_cases hwrite with ⟨-, rfl⟩ | ⟨hbusy, hplace⟩
  · exact (hdata.congr s.setWrBusy rfl (fun m => s.setWrBusy_mem m) rfl rfl).inv h.flight
  · have hidle : s.inFlight = none := by simpa [State.busy] using hbusy
    rcases hplace with ⟨-, -, rfl⟩ | ⟨-, hv, rfl⟩ | ⟨r, -, -, rfl⟩ | ⟨m, i, hwin, rfl⟩ | ⟨-, rfl⟩
    · exact hdata.resetRegs.inv_of_idle rfl
    · exact hdata.accept hv
    · exact (hdata.writeReg r v).inv_of_idle (by rw [State.writeReg_inFlight]; exact hidle)
    · exact (hdata.writeWindow (locate_window_lt hwin) v).inv_of_idle
        (by rw [State.writeWindow_eq, State.writeBytes_inFlight]; exact hidle)
    · exact (hdata.congr s.setBadAccess rfl (fun m => s.setBadAccess_mem m) rfl rfl).inv_of_idle hidle

/-- The invariant does not see the host side of the model: what is still to come, what was read, how many draws. -/
theorem State.Inv.withHostSide {s : State} (h : s.Inv) (ins : List Input) (rds : List Word) (n : Nat) :
    ({ s with inputs := ins, reads := rds, draws := n } : State).Inv :=
  (h.dataInv.congr { s with inputs := ins, reads := rds, draws := n } rfl (fun m => by cases m <;> rfl) rfl rfl).inv
    h.flight

/-- A transfer that passes leaves the word in flight as it is. -/
theorem State.Inv.passTransfer {s : State} (h : s.Inv) : s.passTransfer.Inv := by
  refine (h.dataInv.congr s.passTransfer rfl (fun m => s.passTransfer_mem m) rfl rfl).inv fun c hc => ?_
  rw [State.passTransfer_inFlight, Option.map_eq_some_iff] at hc
  obtain ⟨d, hd, rfl⟩ := hc
  exact h.flight d hd

/-- An event from outside: a host write after its transfer has passed, a read (`WAIT`'s too), which changes the host
side alone, or `rst`. -/
theorem inputEvent_cases {x : Input} {s t : State} (h : inputEvent x s = .next t) :
    (∃ off v, hostWrite off v s.passTransfer = .next t) ∨
    (∃ ins rds n, t = { s.passTransfer with inputs := ins, reads := rds, draws := n }) ∨
    t = s.hardReset := by
  cases x with
  | write addr v =>
    simp only [inputEvent] at h
    split at h
    · exact .inl ⟨_, v, h⟩
    · cases h
  | read addr =>
    simp only [inputEvent] at h
    split at h
    · cases h
      obtain ⟨w, n, hread⟩ := s.passTransfer.hostRead_eq (addr - s.cfg.blockBase)
      exact .inr (.inl ⟨_, _, n, hread⟩)
    · cases h
  | wait =>
    obtain ⟨w, n, hread⟩ := s.passTransfer.hostRead_eq (regOffset .status)
    simp only [inputEvent, hread] at h
    split at h <;> cases h <;> exact .inr (.inl ⟨_, _, n, rfl⟩)
  | rst =>
    cases h
    exact .inr (.inr rfl)

/-- An event from outside keeps the invariant. -/
theorem inputEvent_inv {x : Input} {s t : State} (h : s.Inv) (hevent : inputEvent x s = .next t) : t.Inv := by
  rcases inputEvent_cases hevent with ⟨off, v, hwrite⟩ | ⟨ins, rds, n, rfl⟩ | rfl
  · exact hostWrite_inv h.passTransfer hwrite
  · exact h.passTransfer.withHostSide ins rds n
  · exact h.dataInv.hardReset.inv_of_idle rfl

/-- Settles O9, by the inversion of a step: nothing to do, a completion step, or an event from outside. -/
theorem stepKeepsTheInvariant : Obligations.StepKeepsTheInvariant := by
  intro s t h hstep
  obtain ⟨-, ⟨-, -, rfl⟩ | ⟨c, -, -, hdone⟩ | ⟨x, rest, -, -, hevent⟩⟩ := step_cases hstep
  · exact h
  · exact completionStep_inv h.dataInv hdone
  · exact inputEvent_inv (h.withHostSide rest s.reads s.draws) hevent

end Sys2Proof.Machine
end

section
/-! PROOFS. No command reads a `STATUS` field (10_state.md R48): the body of each command commutes with setting the
four fields of `STATUS` to anything. -/

namespace Sys2Proof.Machine

/-- Other `STATUS` fields; `BUSY` is the command in flight and no field (10_state.md R26, R46). -/
def State.withStatus (s : State) (d : Bool) (e : ErrCode) (w b : Bool) : State :=
  { s with regs := { s.regs with done := d, errCode := e, wrBusy := w, badAccess := b } }

/-- Other sticky bits (60_exceptions.md R233). -/
def State.withSticky (s : State) (w b : Bool) : State :=
  { s with regs := { s.regs with wrBusy := w, badAccess := b } }

section
variable (s : State) (d : Bool) (e : ErrCode) (w b : Bool)

/-! ### What does not see `STATUS` -/

@[simp] theorem State.withStatus_cfg : (s.withStatus d e w b).cfg = s.cfg := rfl
@[simp] theorem State.withStatus_crcStart : (s.withStatus d e w b).crcStart = s.crcStart := rfl
@[simp] theorem State.withStatus_crcCount : (s.withStatus d e w b).crcCount = s.crcCount := rfl
@[simp] theorem State.withStatus_pathBytes : (s.withStatus d e w b).pathBytes = s.pathBytes := rfl
@[simp] theorem State.withStatus_payloadBytes : (s.withStatus d e w b).payloadBytes = s.payloadBytes := rfl
@[simp] theorem State.withStatus_frameTotal : (s.withStatus d e w b).frameTotal = s.frameTotal := rfl
@[simp] theorem State.withStatus_frameCount : (s.withStatus d e w b).frameCount = s.frameCount := rfl
@[simp] theorem State.withStatus_sampleLimit : (s.withStatus d e w b).sampleLimit = s.sampleLimit := rfl
@[simp] theorem State.withStatus_stuffStart : (s.withStatus d e w b).stuffStart = s.stuffStart := rfl
@[simp] theorem State.withStatus_stuffEnd : (s.withStatus d e w b).stuffEnd = s.stuffEnd := rfl
@[simp] theorem State.withStatus_modEnv : (s.withStatus d e w b).modEnv = s.modEnv := rfl
@[simp] theorem State.withStatus_modStart : (s.withStatus d e w b).modStart = s.modStart := rfl

@[simp] theorem State.withStatus_readBytes (m : BlockMem) (i n : Nat) :
    (s.withStatus d e w b).readBytes m i n = s.readBytes m i n :=
  State.readBytes_congr m (s.byte_withRegs _ m) i n

/-- The frame is made of registers other than `STATUS`, and of memory bytes. -/
@[simp] theorem State.withStatus_frameBytes : (s.withStatus d e w b).frameBytes = s.frameBytes := by
  have haddress : (s.withStatus d e w b).addressPlain = s.addressPlain := by
    unfold State.addressPlain
    rw [State.withStatus_readBytes]
    rfl
  have hbody : (s.withStatus d e w b).frameBody = s.frameBody := by
    simp only [State.frameBody, State.addressRegion, haddress, State.withStatus_readBytes,
      State.withStatus_payloadBytes]
  unfold State.frameBytes
  rw [hbody]
  rfl

/-! ### The bodies of the commands -/

/-- CRC tests and reads operands alone. -/
theorem crcBody_withStatus :
    crcBody (s.withStatus d e w b) = ((crcBody s).1.withStatus d e w b, (crcBody s).2) := by
  simp only [crcBody, State.withStatus_crcStart, State.withStatus_crcCount, State.withStatus_cfg,
    State.withStatus_readBytes]
  split <;> rfl

/-- BUILD tests and reads operands alone. -/
theorem buildBody_withStatus :
    buildBody (s.withStatus d e w b) = ((buildBody s).1.withStatus d e w b, (buildBody s).2) := by
  simp only [buildBody, State.withStatus_pathBytes, State.withStatus_payloadBytes, State.withStatus_frameTotal,
    State.withStatus_cfg, State.withStatus_frameBytes]
  split
  · rfl
  · split
    · rfl
    · split <;> rfl

/-- MODULATE tests and reads operands alone, and its run starts from the same modulator. -/
theorem modulateBody_withStatus :
    modulateBody (s.withStatus d e w b) = ((modulateBody s).1.withStatus d e w b, (modulateBody s).2) := by
  simp only [modulateBody, State.withStatus_frameCount, State.withStatus_sampleLimit, State.withStatus_cfg,
    State.withStatus_modEnv, State.withStatus_stuffStart, State.withStatus_stuffEnd, State.withStatus_readBytes,
    State.withStatus_modStart]
  split
  · rfl
  · split
    · rfl
    · split <;> rfl

/-- BUILDMOD takes its branch by BUILD's own code and not by `ERR_CODE`. -/
theorem buildmodBody_withStatus :
    buildmodBody (s.withStatus d e w b) = ((buildmodBody s).1.withStatus d e w b, (buildmodBody s).2) := by
  unfold buildmodBody
  rw [buildBody_withStatus]
  obtain ⟨t, c⟩ := buildBody s
  cases c
  case noError => exact modulateBody_withStatus t d e w b
  all_goals rfl

/-- The completion of a command sets `DONE` and `ERR_CODE` and keeps the sticky bits (60_exceptions.md R231, R233). -/
theorem finish_withStatus (r : State × ErrCode) :
    finish (r.1.withStatus d e w b, r.2) = (finish r).withSticky w b := rfl

/-- Every command but SRESET answers the same state from any `STATUS`, but for the sticky bits. -/
theorem exec_withStatus {i : Instr} {t : State} (hi : i ≠ .sreset) (h : exec i s = .next t) :
    exec i (s.withStatus d e w b) = .next (t.withSticky w b) := by
  cases i <;> cases h
  case crc => rw [exec, execCrc, crcBody_withStatus, finish_withStatus]
  case build => rw [exec, execBuild, buildBody_withStatus, finish_withStatus]
  case modulate => rw [exec, execModulate, modulateBody_withStatus, finish_withStatus]
  case buildmod => rw [exec, execBuildmod, buildmodBody_withStatus, finish_withStatus]
  case sreset => exact absurd rfl hi

end

/-- A command run from the `STATUS` that stands there is run from the state itself, so it keeps the sticky bits. -/
theorem exec_keeps_sticky {i : Instr} {s t : State} (hi : i ≠ .sreset) (h : exec i s = .next t) :
    t.regs.wrBusy = s.regs.wrBusy ∧ t.regs.badAccess = s.regs.badAccess := by
  have hsame : exec i s = .next (t.withSticky s.regs.wrBusy s.regs.badAccess) :=
    exec_withStatus s s.regs.done s.regs.errCode s.regs.wrBusy s.regs.badAccess hi h
  have ht : t = t.withSticky s.regs.wrBusy s.regs.badAccess := Host.Outcome.next.inj (h.symm.trans hsame)
  exact ⟨congrArg (fun u => u.regs.wrBusy) ht, congrArg (fun u => u.regs.badAccess) ht⟩

/-- Settles O48: no body sees `STATUS`, and the completion keeps the sticky bits. -/
theorem noCommandReadsStatus : Obligations.NoCommandReadsStatus := by
  intro i s t d w b e hi h
  obtain ⟨hwr, hbad⟩ := exec_keeps_sticky hi h
  exact ⟨hwr, hbad, exec_withStatus s d e w b hi h⟩

end Sys2Proof.Machine
end

section
/-! PROOFS. What the host port refuses: a build outside its ranges and a transfer outside the aperture
(20_memory.md R60, 93_implementation_defined.md). -/

namespace Sys2Proof.Machine

/-- An address below `BLOCK_BASE` or at offset 0x20000 and above is outside the aperture. -/
theorem decodes_eq_false {c : Config} {addr : Nat} (h : addr < c.blockBase ∨ c.blockBase + 0x20000 ≤ addr) :
    c.decodes addr = false := by
  by_contra hdec
  simp only [Config.decodes, Bool.not_eq_false, Bool.and_eq_true, decide_eq_true_eq] at hdec
  unfold apertureBytes at hdec
  omega

/-- Settles O13: `step` tests the build first, and the port tests the address of a transfer before it acts. -/
theorem refusesWhatTheSpecRefuses : Obligations.RefusesWhatTheSpecRefuses := by
  refine ⟨fun s hbuild => by simp [step, hbuild], fun s addr v rest hlegal hport haddr => ?_⟩
  have hdec := decodes_eq_false haddr
  refine ⟨fun hin => ?_, fun hin => ?_⟩
  all_goals
    rw [step_port hlegal hport hin]
    simp [inputEvent, hdec]

end Sys2Proof.Machine
end

section
/-! PROOFS. The address map (20_memory.md R60, R61, R63): which offsets are registers, which are window words below the
capacity, and that all the others are reserved. -/

namespace Sys2Proof.Machine

/-! ### Registers (10_state.md R22) -/

theorem regOffset_mod_four (r : Reg) : regOffset r % 4 = 0 := by cases r <;> rfl

/-- Every aligned offset below 0x60 is taken by a register. -/
theorem exists_regOffset_eq {w : Nat} (haligned : w % 4 = 0) (hw : w < 0x60) : ∃ r, regOffset r = w := by
  have hlen : w / 4 < regList.length := show w / 4 < 24 by omega
  have hreg : w / 4 = regOffset regList[w / 4] / 4 := regAt_eq_some (List.getElem?_eq_getElem hlen)
  have hmod := regOffset_mod_four regList[w / 4]
  exact ⟨regList[w / 4], by omega⟩

/-! ### Windows -/

/-- A window's rows of the map begin at its base and are as long as the window. -/
theorem windowOf_eq_some_iff (w : Nat) (m : BlockMem) :
    windowOf w = some m ↔ windowBase m ≤ w ∧ w < windowBase m + m.windowBytes := by
  unfold windowOf
  cases m
  all_goals
    simp only [windowBase, BlockMem.windowBytes]
    split_ifs <;> simp <;> omega

/-- No capacity of a legal build is larger than its window (00_scope.md R8, 20_memory.md R61). -/
theorem cap_le_windowBytes {c : Config} (hlegal : c.legal = true) (m : BlockMem) : c.cap m ≤ m.windowBytes := by
  obtain ⟨-, -, -, -, hpayload, -, hframe, -, hsample⟩ := legal_bounds hlegal
  cases m
  case path => exact le_rfl
  case payload => exact hpayload
  case frame => exact hframe
  case sample => exact hsample

/-- Past the registers, a word that begins below the capacity of a window is a word of that window. -/
theorem locate_window {c : Config} {off w : Nat} (m : BlockMem) (hlegal : c.legal = true) (hw : alignOffset off = w)
    (hreg : 0x60 ≤ w) (hlow : windowBase m ≤ w) (hhigh : w < windowBase m + c.cap m) :
    locate c off = .window m (w - windowBase m) := by
  subst hw
  have hnone : regAt (off / 4) = none := regAt_none (by unfold alignOffset at hreg; omega)
  have hwin : windowOf (alignOffset off) = some m :=
    (windowOf_eq_some_iff _ m).2 ⟨hlow, by have := cap_le_windowBytes hlegal m; omega⟩
  simp only [locate, hnone, hwin]
  rw [if_pos (by omega)]

/-- Past the registers, a word that begins below the capacity of no window is reserved (20_memory.md R63). -/
theorem locate_reserved {c : Config} {off w : Nat} (hw : alignOffset off = w) (hreg : 0x60 ≤ w)
    (hout : ∀ m, ¬ (windowBase m ≤ w ∧ w < windowBase m + c.cap m)) : locate c off = .reserved := by
  subst hw
  have hnone : regAt (off / 4) = none := regAt_none (by unfold alignOffset at hreg; omega)
  cases hwin : windowOf (alignOffset off) with
  | none => simp only [locate, hnone, hwin]
  | some m =>
    have hlow := ((windowOf_eq_some_iff _ m).1 hwin).1
    have hcap := hout m
    simp only [locate, hnone, hwin]
    rw [if_neg (by omega)]

/-- The words below the capacity of no window, with the bases and capacities written out. -/
theorem forall_not_in_window {c : Config} {w : Nat} (hpath : ¬ (0x400 ≤ w ∧ w < 0x438))
    (hpayload : ¬ (0x800 ≤ w ∧ w < 0x800 + c.payloadCap)) (hframe : ¬ (0x1000 ≤ w ∧ w < 0x1000 + c.frameCap))
    (hsample : ¬ (0x10000 ≤ w ∧ w < 0x10000 + c.sampleCap)) (m : BlockMem) :
    ¬ (windowBase m ≤ w ∧ w < windowBase m + c.cap m) := by
  cases m
  case path => exact hpath
  case payload => exact hpayload
  case frame => exact hframe
  case sample => exact hsample

/-- Settles O50: registers fill the words below 0x60, and past them the windows lie apart from one another. -/
theorem addressMapIsTheSpecsTable : Obligations.AddressMapIsTheSpecsTable := by
  intro c off hlegal hoff w
  have hw : alignOffset off = w := by simp only [alignOffset, w]; omega
  obtain ⟨-, -, -, -, hpayload, -, hframe, -, hsample⟩ := legal_bounds hlegal
  refine ⟨fun r hr => locate_register c off r (by omega), exists_regOffset_eq (by omega), fun h => ?_,
    fun h => locate_window .path hlegal hw (by omega) h.1 h.2, fun h => ?_,
    fun h => locate_window .payload hlegal hw (by omega) h.1 h.2, fun h => ?_,
    fun h => locate_window .frame hlegal hw (by omega) h.1 h.2, fun h => ?_,
    fun h => locate_window .sample hlegal hw (by omega) h.1 h.2, fun h => ?_⟩
  all_goals
    exact locate_reserved hw (by omega) (forall_not_in_window (by omega) (by omega) (by omega) (by omega))

end Sys2Proof.Machine
end

section
/-! PROOFS. Registers at the port (20_memory.md R62): what a register reads after a register write, and on what a read
depends. -/

namespace Sys2Proof.Machine

/-! ### Low bits of a word -/

/-- The word whose low `k` bits are 1. -/
def lowMask (k : Nat) : Word := BitVec.ofNat 32 (2 ^ k - 1)

theorem lowMask_getLsbD (k i : Nat) (hi : i < 32) : (lowMask k).getLsbD i = decide (i < k) := by
  rw [lowMask, BitVec.getLsbD_ofNat, Nat.testBit_two_pow_sub_one]
  simp [hi]

/-- A field of `k` low bits, as written and read. -/
theorem setWidth_setWidth_eq_and_lowMask (v : Word) (k : Nat) : (v.setWidth k).setWidth 32 = v &&& lowMask k := by
  refine BitVec.eq_of_getLsbD_eq fun i hi => ?_
  rw [BitVec.getLsbD_and, lowMask_getLsbD k i hi, BitVec.getLsbD_setWidth, BitVec.getLsbD_setWidth]
  simp [hi, Bool.and_comm]

/-- A one-bit field at bit 0, as written and read. -/
theorem bitAt_zero_getLsbD (v : Word) : bitAt 0 (v.getLsbD 0) = v &&& lowMask 1 := by
  refine BitVec.eq_of_getLsbD_eq fun i hi => ?_
  rw [BitVec.getLsbD_and, lowMask_getLsbD 1 i hi, bitAt_getLsbD 0 _ i hi]
  by_cases h0 : i = 0 <;> simp [h0]

/-- Two one-bit fields at bits 0 and 1, as written and read. -/
theorem bitAt_zero_or_bitAt_one (v : Word) :
    bitAt 0 (v.getLsbD 0) ||| bitAt 1 (v.getLsbD 1) = v &&& lowMask 2 := by
  refine BitVec.eq_of_getLsbD_eq fun i hi => ?_
  rw [BitVec.getLsbD_or, BitVec.getLsbD_and, lowMask_getLsbD 2 i hi, bitAt_getLsbD 0 _ i hi, bitAt_getLsbD 1 _ i hi]
  rcases show i = 0 ∨ i = 1 ∨ 2 ≤ i by omega with rfl | rfl | h2
  · simp
  · simp
  · simp [show i ≠ 0 by omega, show i ≠ 1 by omega, show ¬ i < 2 by omega]

/-! ### A register after a register write -/

/-- A RW register reads back the written word under its mask (10_state.md R24 to R44). -/
theorem State.readReg_writeReg_same (s : State) (v : Word) {r : Reg} {mask : Word} (hmask : rwMask r = some mask) :
    (s.writeReg r v).readReg r = v &&& mask := by
  cases r <;> cases hmask
  case ctrl => exact bitAt_zero_or_bitAt_one v
  case modLevel => exact bitAt_zero_getLsbD v
  case dstCall0 | srcCall0 => exact (BitVec.and_allOnes (x := v)).symm
  all_goals exact setWidth_setWidth_eq_and_lowMask v _

/-- A register write leaves every other register as it reads. -/
theorem State.readReg_writeReg_ne (s : State) (v : Word) {r r' : Reg} (hne : r' ≠ r) :
    (s.writeReg r v).readReg r' = s.readReg r' := by
  cases r <;> cases r'
  any_goals rfl
  all_goals exact absurd rfl hne

/-- A read of a register depends on the registers and on whether a command is in flight. -/
theorem State.readReg_congr {s t : State} (hregs : t.regs = s.regs) (hbusy : t.busy = s.busy) (r : Reg) :
    t.readReg r = s.readReg r := by
  cases r <;> simp only [State.readReg, State.ctrlWord, State.statusWord, hregs, hbusy]

/-- Settles O43: `STATUS` is one of the other registers for every write but its own. -/
theorem registersReadBackTheirBits : Obligations.RegistersReadBackTheirBits := by
  intro s v
  refine ⟨fun r mask hmask => s.readReg_writeReg_same v hmask, ?_,
    fun r hr => s.readReg_writeReg_ne v (r' := .status) hr.symm, rfl, rfl⟩
  rintro r (rfl | rfl | rfl) <;> rfl

end Sys2Proof.Machine
end

section
/-! PROOFS. Transfers at the idle port (20_memory.md R62, R63, R64, R71): each step of the port, then what it does at a
register, at a window word and at a reserved offset. -/

namespace Sys2Proof.Machine

/-! ### What is still to come is not seen -/

@[simp] theorem State.byte_withInputs (s : State) (ins : List Input) (m : BlockMem) (i : Nat) :
    ({ s with inputs := ins } : State).byte m i = s.byte m i :=
  State.byte_congr m (by cases m <;> rfl) rfl i

@[simp] theorem State.readReg_withInputs (s : State) (ins : List Input) (r : Reg) :
    ({ s with inputs := ins } : State).readReg r = s.readReg r :=
  State.readReg_congr rfl rfl r

@[simp] theorem State.peek_withInputs (s : State) (ins : List Input) (p : Place) :
    ({ s with inputs := ins } : State).peek p = s.peek p := by
  cases p with
  | register r => exact s.readReg_withInputs ins r
  | window m i => exact congrArg packLanes (State.readBytes_congr m (s.byte_withInputs ins m) i _)
  | reserved => rfl

/-! ### The steps of the idle port -/

/-- With nothing in flight, a read puts the word of its place before the words read. -/
theorem step_read_idle {s : State} {addr : Nat} {rest : List Input} (hlegal : s.cfg.legal = true)
    (hidle : s.inFlight = none) (hin : s.inputs = .read addr :: rest) (hdec : s.cfg.decodes addr = true) :
    step s = .next { s with
      inputs := rest, reads := s.peek (locate s.cfg (addr - s.cfg.blockBase)) :: s.reads } := by
  rw [step_port hlegal (portNext_of_none hidle) hin,
    inputEvent_read_idle ({ s with inputs := rest } : State) addr hdec hidle, State.peek_withInputs]

/-- With nothing in flight, a write to a window word is the window's own write. -/
theorem step_writeWindow_idle {s : State} {addr : Nat} {v : Word} {rest : List Input} {m : BlockMem} {a : Nat}
    (hlegal : s.cfg.legal = true) (hidle : s.inFlight = none) (hin : s.inputs = .write addr v :: rest)
    (hdec : s.cfg.decodes addr = true) (hplace : locate s.cfg (addr - s.cfg.blockBase) = .window m a) :
    step s = .next (({ s with inputs := rest } : State).writeWindow m a v) := by
  rw [step_port hlegal (portNext_of_none hidle) hin,
    inputEvent_write_idle ({ s with inputs := rest } : State) addr v hdec hidle]
  simp only [hplace]

/-- With nothing in flight, a write to a reserved offset sets `BAD_ACCESS`. -/
theorem step_writeReserved_idle {s : State} {addr : Nat} {v : Word} {rest : List Input}
    (hlegal : s.cfg.legal = true) (hidle : s.inFlight = none) (hin : s.inputs = .write addr v :: rest)
    (hdec : s.cfg.decodes addr = true) (hplace : locate s.cfg (addr - s.cfg.blockBase) = .reserved) :
    step s = .next ({ s with inputs := rest } : State).setBadAccess := by
  rw [step_port hlegal (portNext_of_none hidle) hin,
    inputEvent_write_idle ({ s with inputs := rest } : State) addr v hdec hidle]
  simp only [hplace]

/-! ### Registers -/

/-- Offset bits [1:0] are not decoded (20_memory.md R60). -/
theorem regOffset_add_div_four (r : Reg) {k : Nat} (hk : k < 4) : (regOffset r + k) / 4 = regOffset r / 4 := by
  have := regOffset_mod_four r
  omega

/-- Settles O44: the write is the register's own, which no other register and no memory sees. -/
theorem idleRegisterWriteReachesItsRegister : Obligations.IdleRegisterWriteReachesItsRegister := by
  intro s r k v rest hlegal hidle hr hk hin
  rw [Nat.add_assoc] at hin
  refine ⟨step_writeReg_idle hlegal hidle hr (regOffset_add_div_four r hk) hin, fun r' hne => ?_, fun m i => ?_⟩
  · rw [State.readReg_writeReg_ne _ v hne, State.readReg_withInputs]
  · rw [State.writeReg_byte, State.byte_withInputs]

/-- Settles O53: all four offsets of the word name the register. -/
theorem idleRegisterReadReturnsItsValue : Obligations.IdleRegisterReadReturnsItsValue := by
  intro s r k rest hlegal hidle hk hin
  rw [Nat.add_assoc] at hin
  have hword := regOffset_add_div_four r hk
  have hbound : regOffset r / 4 < 0x8000 := by cases r <;> decide
  have hdec : s.cfg.decodes (s.cfg.blockBase + (regOffset r + k)) = true :=
    decodes_of_word (by omega) (by rw [Nat.add_sub_cancel_left, hword]) hbound
  rw [step_read_idle hlegal hidle hin hdec, Nat.add_sub_cancel_left, locate_register s.cfg _ r hword]
  rfl

/-! ### Reserved offsets -/

/-- Settles O54, by the step of a read and the step of a write. -/
theorem reservedOffsetsReadZeroAndFlagWrites : Obligations.ReservedOffsetsReadZeroAndFlagWrites := by
  intro s addr v rest hlegal hidle hdec hplace
  refine ⟨fun hin => ?_, fun hin => step_writeReserved_idle hlegal hidle hin hdec hplace⟩
  rw [step_read_idle hlegal hidle hin hdec, hplace]
  rfl

/-! ### Window words -/

/-- Settles O51: the four lanes below the capacity, and only they, take the written word. -/
theorem windowWriteStoresItsLanes : Obligations.WindowWriteStoresItsLanes := by
  intro s addr v rest m a hlegal hidle hin hdec hplace
  refine ⟨_, step_writeWindow_idle hlegal hidle hin hdec hplace, fun j hj hcap => ?_, fun m' i hout => ?_, ?_, ?_, ?_,
    State.writeWindow_sameSurround _ m a v⟩
  · rw [State.writeWindow_byte, if_pos ⟨rfl, by omega, by omega, hcap⟩, Nat.add_sub_cancel_left]
  · have hlane : ¬ (m' = m ∧ a ≤ i ∧ i < a + 4 ∧ i < s.cfg.cap m) := by
      rintro ⟨hm, hlow, hhigh, hcap⟩
      rcases hout with hm' | hi | hi | hi
      · exact hm' hm
      all_goals omega
    rw [State.writeWindow_byte, if_neg hlane, State.byte_withInputs]
  · rw [State.writeWindow_eq, State.writeBytes_regs]
  · rw [State.writeWindow_eq, State.writeBytes_inFlight, hidle]
  · rw [State.writeWindow_eq, State.writeBytes_inputs]

/-- An entry of a run of bytes, and the default past its end. -/
theorem State.readBytes_getD (s : State) (m : BlockMem) (i n j : Nat) (d : Byte) :
    (s.readBytes m i n).getD j d = if j < n then s.byte m (i + j) else d := by
  rw [State.readBytes_eq_map, List.getD_eq_getElem?_getD, List.getElem?_map]
  by_cases hj : j < n
  · rw [List.getElem?_range' hj, if_pos hj, Nat.one_mul]
    rfl
  · rw [List.getElem?_eq_none (by simpa using hj), if_neg hj]
    rfl

/-- Lane `j` of a window word as read: its byte below the capacity, 0 beyond (20_memory.md R63, R64). -/
theorem State.peek_window_lane (s : State) (m : BlockMem) (a j : Nat) (hj : j < 4) :
    (s.peek (.window m a)).extractLsb' (8 * j) 8 = if a + j < s.cfg.cap m then s.byte m (a + j) else 0 := by
  have hlanes : j < laneCount (s.cfg.cap m) a ↔ a + j < s.cfg.cap m := by
    unfold laneCount
    omega
  have hlen : (s.readBytes m a (laneCount (s.cfg.cap m) a)).length ≤ 4 := by
    rw [State.readBytes_length]
    exact Nat.min_le_left _ _
  rw [State.peek, packLanes_lane _ hlen j hj, State.readBytes_getD]
  simp only [hlanes]

/-- Settles O52: the word read is the word of its place. -/
theorem windowReadReturnsItsLanes : Obligations.WindowReadReturnsItsLanes := by
  intro s addr rest m a hlegal hidle hin hdec hplace
  refine ⟨s.peek (.window m a), ?_, fun j hj => s.peek_window_lane m a j hj⟩
  rw [step_read_idle hlegal hidle hin hdec, hplace]

end Sys2Proof.Machine
end

section
/-! PROOFS. Transfers while a command is in flight (20_memory.md R74, R75): `ID`, `CTRL` and `STATUS` read their values,
every other read is free, and every write is dropped. -/

namespace Sys2Proof.Machine

/-- The state in which the port performs the next transfer while a command is in flight: the event is taken from the
list and the command's hold counts it. -/
def State.takeTransfer (s : State) (c : InFlight) (rest : List Input) : State :=
  { s with inputs := rest, inFlight := some { word := c.word, hold := c.hold - 1 } }

/-- While a command is in flight, a read is the port's read. -/
theorem step_read_busy {s : State} {c : InFlight} {addr : Nat} {rest : List Input} (hlegal : s.cfg.legal = true)
    (hflight : s.inFlight = some c) (hhold : c.hold ≠ 0) (hin : s.inputs = .read addr :: rest)
    (hdec : s.cfg.decodes addr = true) :
    step s = .next ((s.takeTransfer c rest).hostRead (addr - s.cfg.blockBase)) := by
  rw [step_port hlegal (portNext_of_hold hflight hhold) hin,
    inputEvent_read_busy ({ s with inputs := rest } : State) c addr hdec hflight]
  rfl

/-- The registers read as before: a command is in flight still. -/
theorem State.readReg_takeTransfer {s : State} {c : InFlight} (hflight : s.inFlight = some c) (rest : List Input)
    (r : Reg) : (s.takeTransfer c rest).readReg r = s.readReg r :=
  State.readReg_congr (s := s) (t := s.takeTransfer c rest) rfl (congrArg Option.isSome hflight).symm r

/-- A read of a readable register returns its value, busy or not. -/
theorem State.hostRead_of_readable (s : State) {off : Nat} {r : Reg} (hplace : locate s.cfg off = .register r)
    (hr : readableBusy (.register r) = true) : s.hostRead off = s.answer (s.readReg r) := by
  simp [State.hostRead, State.peek, hplace, hr]

/-- While busy, a read of any other place returns the free value of the next draw. -/
theorem State.hostRead_of_not_readable {s : State} {off : Nat} (hbusy : s.busy = true)
    (hr : readableBusy (locate s.cfg off) = false) :
    s.hostRead off = { s.answer (Config.busyReadWord s.draws) with draws := s.draws + 1 } := by
  simp [State.hostRead, hbusy, hr]

/-- Outside the words of `ID`, `CTRL` and `STATUS` no place is readable while busy. -/
theorem readableBusy_locate_eq_false {c : Config} {off : Nat} (hid : off / 4 ≠ 0) (hctrl : off / 4 ≠ 1)
    (hstatus : off / 4 ≠ 3) : readableBusy (locate c off) = false := by
  rcases locate_cases c off with ⟨r, hr, hword⟩ | ⟨m, i, hwin, -⟩ | hres
  · rw [hr]
    cases r
    case id => exact absurd hword hid
    case ctrl => exact absurd hword hctrl
    case status => exact absurd hword hstatus
    all_goals rfl
  · rw [hwin]
    rfl
  · rw [hres]
    rfl

/-- Settles O55: the word of the offset tells whether the place is one of the three registers. -/
theorem busyReadsAreFreeButForThree : Obligations.BusyReadsAreFreeButForThree := by
  intro s c addr rest hlegal hflight hhold hin hdec off after
  have hstep := step_read_busy hlegal hflight hhold hin hdec
  have hreg (r : Reg) (hword : off / 4 = regOffset r / 4) (hr : readableBusy (.register r) = true) :
      step s = .next (after (s.readReg r) s.draws) := by
    rw [hstep, State.hostRead_of_readable _ (locate_register _ off r hword) hr, State.readReg_takeTransfer hflight]
    rfl
  refine ⟨fun h => hreg .id h rfl, fun h => hreg .ctrl h rfl, fun h => hreg .status h rfl, fun hid hctrl hstatus => ?_⟩
  rw [hstep, State.hostRead_of_not_readable rfl (readableBusy_locate_eq_false hid hctrl hstatus)]
  rfl

/-- Settles O56: a busy port tests no offset of a write. -/
theorem busyWritesAreDropped : Obligations.BusyWritesAreDropped := by
  intro s c addr v rest hlegal hflight hhold hin hdec
  rw [step_port hlegal (portNext_of_hold hflight hhold) hin,
    inputEvent_write_busy ({ s with inputs := rest } : State) c addr v hdec hflight]

end Sys2Proof.Machine
end

section
/-! PROOFS. Command words (30_encoding.md R90, R91, R92): the five words of the table are exactly the words that decode
to a command. -/

namespace Sys2Proof

/-- A word is its two fields, `MBZ` above `OP` (30_encoding.md R90). -/
theorem toNat_eq_mbz_op (w : Word) : w.toNat = 16 * (mbzField w).toNat + (opField w).toNat := by
  have hlt := w.isLt
  simp only [mbzField, opField, BitVec.extractLsb'_toNat, Nat.shiftRight_eq_div_pow]
  omega

/-- A code that names a command is the low half-byte of the command's word (30_encoding.md R91). -/
theorem toNat_encode_of_decodeOp {op : BitVec 4} {i : Instr} (h : decodeOp op = some i) :
    (encode i).toNat = op.toNat := by
  unfold decodeOp at h
  split at h <;> cases h <;> simp [encode, *]

/-- Settles O2: the word of each command, read by the decoder. -/
theorem encodeThenDecodeGivesTheCommand : Obligations.EncodeThenDecodeGivesTheCommand := by
  intro i
  cases i <;> rfl

/-- A word decodes to a command exactly when it is the command's own word. -/
theorem decode_eq_ok_iff (w : Word) (i : Instr) : decode w = .ok i ↔ w = encode i := by
  refine ⟨fun h => BitVec.eq_of_toNat_eq ?_, fun h => h ▸ encodeThenDecodeGivesTheCommand i⟩
  unfold decode at h
  split at h
  next hmbz =>
    split at h
    next j hop =>
      cases h
      rw [toNat_eq_mbz_op, hmbz, toNat_encode_of_decodeOp hop]
      simp
    next => cases h
  next => cases h

/-- Settles O1: for each command one row of the table is left, and it gives the command's word. -/
theorem decodeSelectsByTheWholeWord : Obligations.DecodeSelectsByTheWholeWord := by
  intro w i
  rw [decode_eq_ok_iff]
  cases i <;> simp [encode]

/-- Settles O3: the five rows of the table, and four words that the decoder refuses by the field at fault. -/
theorem specWordsDecodeAsWritten : Obligations.SpecWordsDecodeAsWritten :=
  ⟨encodeThenDecodeGivesTheCommand .crc, encodeThenDecodeGivesTheCommand .build,
    encodeThenDecodeGivesTheCommand .modulate, encodeThenDecodeGivesTheCommand .buildmod,
    encodeThenDecodeGivesTheCommand .sreset, rfl, rfl, rfl, rfl⟩

end Sys2Proof
end

section
/-! PROOFS. `WAIT` (30_encoding.md R96): the busy reads of the hold, the completion step, and the last read. -/

namespace Sys2Proof.Machine

/-- A run begins with a step. -/
theorem run_succ {s t : State} (n : Nat) (h : step s = .next t) :
    Host.Core.run core (n + 1) s = Host.Core.run core n t := by
  have hstep : core.step s = .next t := h
  simp only [Host.Core.run, hstep]

/-! ### The reads of `STATUS` -/

/-- `STATUS` returns its value, busy or not (20_memory.md R74). -/
theorem State.hostRead_status (s : State) : s.hostRead (regOffset .status) = s.answer (s.readReg .status) :=
  s.hostRead_of_readable (locate_register s.cfg _ .status rfl) rfl

/-- While the hold lasts, `WAIT` reads `STATUS`, which counts as a transfer, and stands to be done again. -/
theorem step_wait_busy {s : State} {c : InFlight} {rest : List Input} (hlegal : s.cfg.legal = true)
    (hflight : s.inFlight = some c) (hhold : c.hold ≠ 0) (hin : s.inputs = .wait :: rest) :
    step s = .next ((s.takeTransfer c (.wait :: rest)).answer s.statusWord) := by
  have hbusy : ({ s with inputs := rest } : State).busy = true := congrArg Option.isSome hflight
  have hpass : ({ s with inputs := rest } : State).passTransfer = s.takeTransfer c rest := by
    simp only [State.passTransfer, State.takeTransfer, hflight, Option.map_some]
  rw [step_port hlegal (portNext_of_hold hflight hhold) hin, inputEvent, if_pos hbusy, State.hostRead_status, hpass,
    State.readReg_takeTransfer hflight]
  rfl

/-- With nothing in flight, `WAIT` reads `STATUS` once and is over. -/
theorem step_wait_idle {s : State} {rest : List Input} (hlegal : s.cfg.legal = true) (hidle : s.inFlight = none)
    (hin : s.inputs = .wait :: rest) :
    step s = .next { s with inputs := rest, reads := s.statusWord :: s.reads } := by
  have hbusy : ({ s with inputs := rest } : State).busy = false := congrArg Option.isSome hidle
  rw [step_port hlegal (portNext_of_none hidle) hin, inputEvent, hbusy, if_neg Bool.false_ne_true,
    State.passTransfer_idle (s := { s with inputs := rest }) hidle, State.hostRead_status, State.readReg_withInputs]
  rfl

/-! ### The completion step -/

/-- Every command but SRESET ends with `DONE` = 1 (60_exceptions.md R231). -/
theorem exec_done {i : Instr} {s t : State} (hi : i ≠ .sreset) (h : exec i s = .next t) : t.regs.done = true := by
  cases i <;> cases h
  case sreset => exact absurd rfl hi
  all_goals rfl

/-- The completion step of any word but that of SRESET, reserved words too: it answers a state with nothing in flight
and `DONE` = 1, and leaves the host side alone. -/
theorem completionStep_completes {w : Word} (hw : w ≠ encode .sreset) (s : State) :
    ∃ t, completionStep w s = .next t ∧ t.inFlight = none ∧ t.regs.done = true ∧ s.sameSurround t := by
  cases hdec : decode w with
  | ok i =>
    obtain ⟨t, hexec⟩ := exec_next i s
    have hi : i ≠ .sreset := fun h => hw (h ▸ (decode_eq_ok_iff w i).1 hdec)
    exact ⟨t, by rw [completionStep, hdec]; exact hexec, exec_inFlight hexec, exec_done hi hexec,
      exec_sameSurround hexec⟩
  | error e =>
    exact ⟨s.complete .badCmd, by rw [completionStep, hdec]; rfl, rfl, rfl,
      State.sameSurround_complete (t := s) ⟨rfl, rfl, rfl, rfl, rfl, rfl⟩ .badCmd⟩

/-- `BUSY` reads 0 with nothing in flight. -/
theorem State.statusWord_busy_of_idle {s : State} (hidle : s.inFlight = none) : s.statusWord.getLsbD 0 = false := by
  rw [s.statusWord_getLsbD 0 (by decide)]
  simp [State.busy, hidle]

/-- Settles O8, by induction on the hold: each busy read takes one from it and leaves `STATUS` as it was; at 0 come the
completion step and the last read. -/
theorem waitEndsAfterTheCompletion : Obligations.WaitEndsAfterTheCompletion := by
  intro s c rest hlegal hflight hword hin
  obtain ⟨w, hold⟩ := c
  induction hold generalizing s with
  | zero =>
    obtain ⟨u, hdone, hidle, hdoneBit, hcfg, hinputs, hreads, -⟩ := completionStep_completes hword s
    have hfirst : step s = .next u := (step_engine hlegal hflight (.inl rfl)).trans hdone
    have hlast := step_wait_idle (hcfg ▸ hlegal) hidle (hinputs.trans hin)
    refine ⟨_, (run_succ 1 hfirst).trans (run_succ 0 hlast), rfl, hidle, hdoneBit,
      State.statusWord_busy_of_idle hidle, ?_⟩
    exact congrArg (u.statusWord :: ·) hreads
  | succ n ih =>
    let u := (s.takeTransfer ⟨w, n + 1⟩ (.wait :: rest)).answer s.statusWord
    have hpoll : step s = .next u := step_wait_busy hlegal hflight (Nat.succ_ne_zero n) hin
    obtain ⟨t, hrun, hinputs, hidle, hdoneBit, hbusy, hreads⟩ := ih u hlegal rfl rfl hword
    have hstatus : u.statusWord = s.statusWord := State.readReg_takeTransfer hflight (.wait :: rest) .status
    refine ⟨t, (run_succ (n + 2) hpoll).trans hrun, hinputs, hidle, hdoneBit, hbusy, ?_⟩
    have hread : u.reads = s.statusWord :: s.reads := rfl
    rw [hreads, hstatus, hread, List.replicate_succ', List.append_assoc]
    rfl

end Sys2Proof.Machine
end

section
/-! PROOFS. `WRCALL` and `WRBYTES` (30_encoding.md R96): what their transfers store at the idle port. -/

namespace Sys2Proof.Machine

/-! ### `WRCALL` -/

/-- With nothing in flight, `WR` to a register other than `CMD` is the register's own write. -/
theorem step_wrInput_reg {s : State} {r : Reg} {v : Word} {rest : List Input} (hlegal : s.cfg.legal = true)
    (hidle : s.inFlight = none) (hr : r ≠ .cmd) (hin : s.inputs = wrInput s.cfg (.reg r) v :: rest) :
    step s = .next (({ s with inputs := rest } : State).writeReg r v) :=
  step_writeReg_idle hlegal hidle hr rfl hin

/-- Two `WR`s to registers at the idle port take two steps and are the two registers' writes. -/
theorem run_two_wrInput_reg {s : State} {r r' : Reg} {v v' : Word} {rest : List Input} (hlegal : s.cfg.legal = true)
    (hidle : s.inFlight = none) (hr : r ≠ .cmd) (hr' : r' ≠ .cmd)
    (hin : s.inputs = [wrInput s.cfg (.reg r) v, wrInput s.cfg (.reg r') v'] ++ rest) :
    Host.Core.run core 2 s = .next (({ s with inputs := rest } : State).writeReg r v |>.writeReg r' v') := by
  let u := ({ s with inputs := wrInput s.cfg (.reg r') v' :: rest } : State).writeReg r v
  have hcfg : u.cfg = s.cfg := State.writeReg_cfg _ r v
  have hfirst : step s = .next u := step_wrInput_reg hlegal hidle hr hin
  have hsecond : step u = .next (({ u with inputs := rest } : State).writeReg r' v') :=
    step_wrInput_reg (hcfg ▸ hlegal) ((State.writeReg_inFlight _ r v).trans hidle) hr'
      ((State.writeReg_inputs _ r v).trans (hcfg ▸ rfl))
  have hsame : ({ u with inputs := rest } : State) = ({ s with inputs := rest } : State).writeReg r v := by
    cases r <;> rfl
  rw [run_succ 1 hfirst, run_succ 0 hsecond, hsame]
  rfl

/-- The characters followed by zero bytes up to six. -/
theorem callPad_eq {chars : List Byte} (h : chars.length ≤ 6) :
    callPad chars = chars ++ List.replicate (6 - chars.length) 0 := by
  rw [callPad, List.take_append, List.take_of_length_le h, List.take_replicate, Nat.min_eq_left (Nat.sub_le ..)]

/-- Lane `j` of at most four packed lanes is byte `j`. -/
theorem lane_packLanes {bs : List Byte} (h : bs.length ≤ 4) {j : Nat} (hj : j < 4) :
    lane (packLanes bs) j = bs.getD j 0 :=
  packLanes_lane bs h j hj

/-- The low half-word keeps lanes 0 and 1. -/
theorem lane_setWidth_16 (v : Word) {j : Nat} (hj : j < 2) : lane (v.setWidth 16) j = lane v j := by
  ext i hi
  simp [lane, show 8 * j + i < 16 by omega]

/-- Six bytes in the two registers of a callsign, as `WRCALL` packs them, are its six bytes (10_state.md R29, R31). -/
theorem callBytes_packLanes {bs : List Byte} (h : bs.length = 6) :
    callBytes (packLanes (bs.take 4)) ((packLanes (bs.drop 4)).setWidth 16) = bs := by
  match bs, h with
  | [b0, b1, b2, b3, b4, b5], _ => simp [callBytes, lane_setWidth_16, lane_packLanes]

/-- What `WRCALL` stores in the two registers of a callsign is its characters, padded. -/
theorem callBytes_callPad {chars : List Byte} (h : chars.length ≤ 6) :
    callBytes (packLanes ((callPad chars).take 4)) ((packLanes ((callPad chars).drop 4)).setWidth 16) =
      chars ++ List.replicate (6 - chars.length) 0 := by
  rw [callBytes_packLanes (by simp [callPad]), callPad_eq h]

/-- Settles O57: two register writes, to the registers of one callsign. -/
theorem wrcallStoresTheCallsign : Obligations.WrcallStoresTheCallsign := by
  intro s chars rest hlegal hidle hlen
  refine ⟨fun hin => ?_, fun hin => ?_⟩
  all_goals
    exact ⟨_, run_two_wrInput_reg hlegal hidle (by decide) (by decide) hin, rfl, hidle, callBytes_callPad hlen, rfl⟩

/-! ### `WRBYTES` -/

/-- The next group of a list that is not empty: its first four bytes, or all of them. -/
theorem wrGroups_of_ne_nil (c : Config) (m : BlockMem) (w : Nat) {bytes : List Byte} (h : bytes ≠ []) :
    wrGroups c m w bytes =
      wrInput c (.window m w) (packLanes (bytes.take 4)) :: wrGroups c m (w + 1) (bytes.drop 4) := by
  match bytes, h with
  | [_], _ | [_, _], _ | [_, _, _], _ => rfl
  | _ :: _ :: _ :: _ :: _, _ => rfl

/-- The offset of a window word that begins below the capacity names that word (30_encoding.md R95). -/
theorem locate_windowOffset {c : Config} (hlegal : c.legal = true) {m : BlockMem} {w : Nat} (hw : 4 * w < c.cap m) :
    locate c (targetOffset (.window m w)) = .window m (4 * w) := by
  have hbase : 0x60 ≤ windowBase m ∧ windowBase m % 4 = 0 := by cases m <;> decide
  have halign : alignOffset (targetOffset (.window m w)) = windowBase m + 4 * w := by
    simp only [alignOffset, targetOffset]
    omega
  rw [locate_window m hlegal halign (by omega) (by omega) (by omega), Nat.add_sub_cancel_left]

/-- With nothing in flight, `WR` to a window word below the capacity is the window's own write. -/
theorem step_wrInput_window {s : State} {m : BlockMem} {w : Nat} {v : Word} {rest : List Input}
    (hlegal : s.cfg.legal = true) (hidle : s.inFlight = none) (hw : 4 * w < s.cfg.cap m)
    (hin : s.inputs = wrInput s.cfg (.window m w) v :: rest) :
    step s = .next (({ s with inputs := rest } : State).writeWindow m (4 * w) v) := by
  have hcap := cap_le_windowBytes hlegal m
  have hend : windowBase m + m.windowBytes ≤ 0x20000 := by cases m <;> decide
  have hdec : s.cfg.decodes (s.cfg.blockBase + (windowBase m + 4 * w)) = true :=
    decodes_of_word (by omega) rfl (by omega)
  refine step_writeWindow_idle hlegal hidle hin hdec ?_
  rw [← locate_windowOffset hlegal hw]
  exact congrArg _ (Nat.add_sub_cancel_left ..)

/-- The bytes of a whole window word after a write of packed bytes: those bytes, missing ones 0, and no others. -/
theorem State.writeWindow_packLanes_byte (s : State) {m : BlockMem} {a : Nat} (ha : a + 4 ≤ s.cfg.cap m)
    {bs : List Byte} (hbs : bs.length ≤ 4) (m' : BlockMem) (i : Nat) :
    (s.writeWindow m a (packLanes bs)).byte m' i =
      if m' = m ∧ a ≤ i ∧ i < a + 4 then bs.getD (i - a) 0 else s.byte m' i := by
  rw [State.writeWindow_byte]
  by_cases h : m' = m ∧ a ≤ i ∧ i < a + 4
  · obtain ⟨hm, hlow, hhigh⟩ := h
    rw [if_pos ⟨hm, hlow, hhigh, by omega⟩, if_pos ⟨hm, hlow, hhigh⟩, packLanes_lane bs hbs _ (by omega)]
  · rw [if_neg h, if_neg fun ⟨hm, hlow, hhigh, _⟩ => h ⟨hm, hlow, hhigh⟩]

/-- A state with nothing in flight, the registers of `s`, and the bytes of `s` but for `n` of memory `m` from index `a`
on, which are those of the list, and 0 past its end. -/
structure State.Stored (s : State) (m : BlockMem) (a n : Nat) (bytes : List Byte) (t : State) : Prop where
  idle : t.inFlight = none
  regs : t.regs = s.regs
  byte : ∀ m' i, t.byte m' i = if m' = m ∧ a ≤ i ∧ i < a + n then bytes.getD (i - a) 0 else s.byte m' i

/-- A group of four bytes, then the groups of the rest of the list. -/
theorem State.Stored.cons_group {s u t : State} {m : BlockMem} {a n : Nat} {bytes : List Byte}
    (hfirst : s.Stored m a 4 (bytes.take 4) u) (hrest : u.Stored m (a + 4) n (bytes.drop 4) t) :
    s.Stored m a (n + 4) bytes t where
  idle := hrest.idle
  regs := hrest.regs.trans hfirst.regs
  byte m' i := by
    rw [hrest.byte, hfirst.byte]
    by_cases hpast : a + 4 ≤ i
    · have hrange : i < a + 4 + n ↔ i < a + (n + 4) := by omega
      have hindex : 4 + (i - (a + 4)) = i - a := by omega
      simp [hpast, hrange, hindex, show ¬ i < a + 4 by omega, show a ≤ i by omega]
    · have hrange : i < a + (n + 4) ∧ i < a + 4 ∧ i - a < 4 := by omega
      simp [hpast, hrange]

/-- A `WR` of a group stores it. -/
theorem State.stored_writeWindow {s : State} (hidle : s.inFlight = none) {m : BlockMem} {a : Nat}
    (ha : a + 4 ≤ s.cfg.cap m) {bs : List Byte} (hbs : bs.length ≤ 4) (ins : List Input) :
    s.Stored m a 4 bs (({ s with inputs := ins } : State).writeWindow m a (packLanes bs)) where
  idle := (State.writeBytes_inFlight ..).trans hidle
  regs := State.writeBytes_regs ..
  byte m' i := by
    rw [State.writeWindow_packLanes_byte { s with inputs := ins } ha hbs, State.byte_withInputs]

/-- The transfers of `WRBYTES`, by induction on the number of groups: a step for each. -/
theorem run_wrGroups {m : BlockMem} {rest : List Input} (n : Nat) {s : State} {w : Nat} {bytes : List Byte}
    (hlegal : s.cfg.legal = true) (hidle : s.inFlight = none) (hn : (bytes.length + 3) / 4 = n)
    (hcap : 4 * w + 4 * n ≤ s.cfg.cap m) (hin : s.inputs = wrGroups s.cfg m w bytes ++ rest) :
    ∃ t, Host.Core.run core n s = .next t ∧ t.inputs = rest ∧ s.Stored m (4 * w) (4 * n) bytes t := by
  induction n generalizing s w bytes with
  | zero =>
    obtain rfl : bytes = [] := List.eq_nil_of_length_eq_zero (by omega)
    exact ⟨s, rfl, hin, hidle, rfl, fun m' i => (if_neg (by omega)).symm⟩
  | succ n ih =>
    have hne : bytes ≠ [] := by rintro rfl; simp at hn
    rw [wrGroups_of_ne_nil _ _ _ hne, List.cons_append] at hin
    let ins := wrGroups s.cfg m (w + 1) (bytes.drop 4) ++ rest
    let u := ({ s with inputs := ins } : State).writeWindow m (4 * w) (packLanes (bytes.take 4))
    have hfirst : step s = .next u := step_wrInput_window hlegal hidle (by omega) hin
    have hstored : s.Stored m (4 * w) 4 (bytes.take 4) u :=
      State.stored_writeWindow hidle (by omega) (List.length_take_le 4 bytes) ins
    have hcfg : u.cfg = s.cfg := State.writeWindow_cfg _ m _ _
    obtain ⟨t, hrun, hinputs, hlater⟩ := ih (s := u) (w := w + 1) (bytes := bytes.drop 4) (hcfg ▸ hlegal)
      hstored.idle (by rw [List.length_drop]; omega) (by rw [hcfg]; omega)
      (by rw [hcfg]; exact State.writeBytes_inputs ..)
    exact ⟨t, (run_succ n hfirst).trans hrun, hinputs, hstored.cons_group hlater⟩

/-- Settles O58: `k` is the first byte of word `k / 4`. -/
theorem wrbytesStoresTheBytes : Obligations.WrbytesStoresTheBytes := by
  intro s m k bytes rest hlegal hidle hk hcap hin
  have hword : 4 * (k / 4) = k := by omega
  obtain ⟨t, hrun, hinputs, hstored⟩ := run_wrGroups _ hlegal hidle rfl (hword.symm ▸ hcap) hin
  rw [hword] at hstored
  refine ⟨t, hrun, hinputs, hstored.idle, hstored.regs, fun j hj => ?_, fun m' i hout => ?_⟩
  · rw [hstored.byte, if_pos ⟨rfl, by omega, by omega⟩, Nat.add_sub_cancel_left]
  · rw [hstored.byte, if_neg]
    rintro ⟨hm, hlow, hhigh⟩
    rcases hout with hne | hi | hi
    · exact hne hm
    all_goals omega

end Sys2Proof.Machine
end

section
/-! PROOFS. The CRC (40_crc.md). The recurrence is linear over XOR and only shifts a register whose low bits are 0, so
a byte is one table lookup on the low eight bits. The byte-at-a-time form (R122) and the good-FCS residue (R121) are
read off that; the residue gives the FCS of a built frame (41_framer.md R146), and the command is the case analysis of
its body (R124). -/

namespace Sys2Proof.Machine

/-! ### The recurrence (40_crc.md R120) -/

theorem crcRun_eq_foldl (c : BitVec 16) (d : List Byte) : crcRun c d = d.foldl crcByte c := by
  induction d generalizing c with
  | nil => rfl
  | cons b bs ih => exact ih (crcByte c b)

theorem crcRun_append (c : BitVec 16) (d e : List Byte) : crcRun c (d ++ e) = crcRun (crcRun c d) e := by
  simp only [crcRun_eq_foldl, List.foldl_append]

/-- One bit is linear: the feedback is taken in as often as the low bits say, and twice is not at all. -/
theorem crcBit_xor (a b : BitVec 16) : crcBit (a ^^^ b) = crcBit a ^^^ crcBit b := by
  simp only [crcBit, BitVec.getLsbD_xor, BitVec.ushiftRight_xor_distrib]
  have hfeedback (x y z : BitVec 16) : x ^^^ y ^^^ z = x ^^^ z ^^^ y := by ac_rfl
  cases a.getLsbD 0 <;> cases b.getLsbD 0 <;> simp [← BitVec.xor_assoc, hfeedback]

theorem crcBit_iterate_xor (n : Nat) (a b : BitVec 16) :
    crcBit^[n] (a ^^^ b) = crcBit^[n] a ^^^ crcBit^[n] b := by
  induction n generalizing a b with
  | zero => rfl
  | succ n ih => rw [Function.iterate_succ_apply, crcBit_xor, ih]; rfl

/-- While the bits that leave the register are 0, there is no feedback. -/
theorem crcBit_iterate_of_low_zero (n : Nat) {c : BitVec 16} (hlow : ∀ i < n, c.getLsbD i = false) :
    crcBit^[n] c = c >>> n := by
  induction n generalizing c with
  | zero => rfl
  | succ n ih =>
    have hbit : crcBit c = c >>> 1 := by rw [crcBit, hlow 0 n.succ_pos]; rfl
    have hnext : ∀ i < n, (c >>> 1).getLsbD i = false := fun i hi => by
      rw [BitVec.getLsbD_ushiftRight]
      exact hlow _ (by omega)
    rw [Function.iterate_succ_apply, hbit, ih hnext, ← BitVec.shiftRight_add, Nat.add_comm]

/-! ### A byte as one lookup -/

/-- Eight steps from a register of one byte: the entry of the 256-entry table of a table-driven CRC. -/
def crcTable (x : Byte) : BitVec 16 := crcBit^[8] (x.setWidth 16)

/-- The high byte of the register is shifted down; the low byte, with the byte that enters, selects the feedback. -/
theorem crcByte_eq_table (c : BitVec 16) (b : Byte) :
    crcByte c b = c >>> 8 ^^^ crcTable (b ^^^ c.setWidth 8) := by
  have hsplit : c ^^^ b.setWidth 16 = c >>> 8 <<< 8 ^^^ (b ^^^ c.setWidth 8).setWidth 16 := by
    ext i hi
    by_cases h : i < 8
    · simp [h, hi, Bool.xor_comm]
    · simp [h, hi, show 8 + (i - 8) = i by omega]
  have hback : c >>> 8 <<< 8 >>> 8 = c >>> 8 := by
    ext i hi
    simpa using BitVec.lt_of_getLsbD
  have hhigh : crcBit^[8] (c >>> 8 <<< 8) = c >>> 8 :=
    (crcBit_iterate_of_low_zero 8 fun i hi => by simp [hi]).trans hback
  calc crcByte c b = crcBit^[8] (c ^^^ b.setWidth 16) := rfl
    _ = c >>> 8 ^^^ crcTable (b ^^^ c.setWidth 8) := by
      rw [hsplit, crcBit_iterate_xor, hhigh]
      rfl

/-- The table in closed form (40_crc.md R122), by its 256 entries. -/
theorem crcTable_eq (x : Byte) :
    crcTable x = (x ^^^ x <<< 4).setWidth 16 <<< 8 ^^^ ((x ^^^ x <<< 4) >>> 4).setWidth 16 ^^^
      (x ^^^ x <<< 4).setWidth 16 <<< 3 := by
  revert x
  unfold crcTable
  decide +kernel

/-- The byte-at-a-time form of 40_crc.md R122. -/
def crcUpdate (c : BitVec 16) (b : Byte) : BitVec 16 :=
  let x : Byte := b ^^^ c.setWidth 8
  let y : Byte := x ^^^ (x <<< 4)
  ((y.setWidth 16 <<< 8) ||| (c >>> 8)) ^^^ (y >>> 4).setWidth 16 ^^^ (y.setWidth 16 <<< 3)

theorem crcByte_eq_update (c : BitVec 16) (b : Byte) : crcByte c b = crcUpdate c b := by
  have hdisjoint (y : Byte) : y.setWidth 16 <<< 8 ||| c >>> 8 = c >>> 8 ^^^ y.setWidth 16 <<< 8 := by
    ext i hi
    by_cases h : i < 8
    · simp [h]
    · simp [h, BitVec.getLsbD_of_ge c (8 + i) (by omega)]
  rw [crcByte_eq_table, crcTable_eq, crcUpdate, hdisjoint]
  simp only [BitVec.xor_assoc]

/-! ### The FCS (40_crc.md R121, R123) -/

theorem fcsBytes_eq (f : BitVec 16) : fcsBytes f = [f.setWidth 8, (f >>> 8).setWidth 8] := by
  have hlane (j : Nat) : lane f j = (f >>> (8 * j)).setWidth 8 := by
    ext i hi
    simp [lane]
  simp [fcsBytes, hlane]

/-- The first byte of the FCS makes the low byte of the register 0xFF, the second cancels its high byte: what is left
depends on no byte of the sequence. -/
theorem crcRun_fcsBytes (c : BitVec 16) : crcRun c (fcsBytes (c ^^^ 0xFFFF)) = 0xF0B8 := by
  have hlow : (c ^^^ 0xFFFF).setWidth 8 ^^^ c.setWidth 8 = 0xFF := by
    rw [BitVec.setWidth_xor, BitVec.xor_comm, ← BitVec.xor_assoc, BitVec.xor_self]; rfl
  have hfirst : crcByte c ((c ^^^ 0xFFFF).setWidth 8) = c >>> 8 ^^^ crcTable 0xFF := by
    rw [crcByte_eq_table, hlow]
  have hsecond : crcByte (c >>> 8 ^^^ crcTable 0xFF) (((c ^^^ 0xFFFF) >>> 8).setWidth 8) = 0xF0B8 := by
    have hcancel (a m t : Byte) : a ^^^ m ^^^ (a ^^^ t) = m ^^^ t := by
      rw [BitVec.xor_comm a m, BitVec.xor_assoc, ← BitVec.xor_assoc a, BitVec.xor_self, BitVec.zero_xor]
    rw [crcByte_eq_table, BitVec.ushiftRight_xor_distrib, BitVec.ushiftRight_xor_distrib, BitVec.setWidth_xor,
      BitVec.setWidth_xor, hcancel, ← BitVec.shiftRight_add, BitVec.ushiftRight_eq_zero (by decide)]
    decide
  rw [fcsBytes_eq, crcRun, hfirst, crcRun, hsecond, crcRun]

theorem crcRun_append_fcs (d : List Byte) : crcRun 0xFFFF (d ++ fcsBytes (crc16 d)) = 0xF0B8 := by
  rw [crcRun_append]
  exact crcRun_fcsBytes (crcRun 0xFFFF d)

theorem crc16_append_fcs (d : List Byte) : crc16 (d ++ fcsBytes (crc16 d)) = 0x0F47 := by
  rw [crc16, crcRun_append_fcs]
  rfl

/-- The catalogue's check value of the function. -/
theorem crc16_check : crc16 [0x31, 0x32, 0x33, 0x34, 0x35, 0x36, 0x37, 0x38, 0x39] = 0x906E := by decide +kernel

/-- Settles O17: the check values by computation, the residue from that of the FCS bytes. -/
theorem crcOfASequenceWithItsFcs : Obligations.CrcOfASequenceWithItsFcs := by
  refine ⟨by decide, by decide, by decide, by decide, crc16_check, fun d => ?_⟩
  rw [← fcsBytes_eq]
  exact ⟨crcRun_append_fcs d, crc16_append_fcs d⟩

/-- Settles O18: the form is the byte step itself, so its runs are the runs of the recurrence. -/
theorem crcBytewiseFormIsTheSame : Obligations.CrcBytewiseFormIsTheSame := by
  have hrun (d : List Byte) : d.foldl crcUpdate 0xFFFF ^^^ 0xFFFF = crc16 d := by
    rw [crc16, crcRun_eq_foldl, funext₂ crcByte_eq_update]
  exact ⟨crcByte_eq_update, hrun, (hrun _).trans crc16_check⟩

/-! ### The FCS of a built frame (41_framer.md R146) -/

theorem exec_build_of_fits {s : State} (h : s.buildFits) : exec .build s = .next (s.built.complete .noError) := by
  rw [exec, execBuild, finish, buildBody_of_fits h]

/-- A range of `FRAME_MEM` inside the frame just built is the same range of the frame's bytes. -/
theorem State.built_readBytes_frame (s : State) {i n : Nat} (h : i + n ≤ s.frameTotal) :
    s.built.readBytes .frame i n = (s.frameBytes.drop i).take n := by
  refine List.ext_getElem (by simp; omega) fun k hk hk' => ?_
  have hin : i + k < s.frameTotal := by rw [State.readBytes_length] at hk; omega
  simp [State.readBytes_eq_range, State.built_byte_frame, hin]

/-- After the opening flags the frame holds the FCS coverage and its FCS (41_framer.md R140). -/
theorem State.frameBytes_covered (s : State) :
    (s.frameBytes.drop s.preCount).take (18 + s.pathBytes + s.payloadBytes) =
      s.frameBody ++ fcsBytes (crc16 s.frameBody) := by
  have hframe : s.frameBytes = List.replicate s.preCount flagByte ++
      (s.frameBody ++ fcsBytes (crc16 s.frameBody) ++ List.replicate s.postCount flagByte) := by
    simp [State.frameBytes]
  rw [hframe, List.drop_left' (by simp), List.take_left' (by simp; omega)]

/-- Settles O24: what stands from the first address byte through the FCS is a sequence followed by its FCS. -/
theorem builtFrameHasAGoodFcs : Obligations.BuiltFrameHasAGoodFcs := by
  intro s t hfits hexec
  obtain rfl : s.built.complete .noError = t := Host.Outcome.next.inj ((exec_build_of_fits hfits).symm.trans hexec)
  have hroom : s.preCount + (18 + s.pathBytes + s.payloadBytes) ≤ s.frameTotal := by
    unfold State.frameTotal
    omega
  simp only [State.complete_byte]
  rw [← State.readBytes_eq_range, s.built_readBytes_frame hroom, s.frameBytes_covered, crc16_append_fcs]

/-! ### The `CRC` command (40_crc.md R124) -/

/-- Settles O15, by the two cases of its body. -/
theorem crcCommandComputesOrFails : Obligations.CrcCommandComputesOrFails := by
  intro s
  rcases crcBody_cases s with ⟨hover, hbody⟩ | ⟨hfit, hbody⟩
  · refine ⟨fun hle => absurd hle (Nat.not_le.2 hover), fun _ => ?_⟩
    rw [exec, execCrc, hbody]
    rfl
  · refine ⟨fun _ => ?_, fun hlt => absurd hlt (Nat.not_lt.2 hfit)⟩
    rw [exec, execCrc, hbody, State.readBytes_eq_range]
    rfl

/-- Settles O16: the body changes at most `CRC_RESULT`, the completion only `STATUS`. -/
theorem crcChangesOnlyItsResult : Obligations.CrcChangesOnlyItsResult := by
  intro s t hexec
  have hsurround := exec_sameSurround hexec
  cases hexec
  rcases crcBody_cases s with ⟨-, hbody⟩ | ⟨-, hbody⟩ <;> rw [finish, hbody] at hsurround ⊢
  · exact ⟨rfl, s.complete_byte _, hsurround⟩
  · refine ⟨rfl, fun m i => ?_, hsurround⟩
    rw [State.complete_byte, State.byte_withRegs]

end Sys2Proof.Machine
end

section
/-! PROOFS. `BUILD` (41_framer.md): the frame it stores is the table of R140 row by row, and a failing check changes
only `FRAME_LEN` (R149, R150). The address region is one row of plain bytes, shifted and with its last marked (R143);
the SSID bytes (R151) and the address extension bit are read off it. -/

namespace Sys2Proof.Machine

/-- A byte of a run of bytes, by its index in the run. -/
theorem State.readBytes_getElem? (s : State) (m : BlockMem) (a : Nat) {n j : Nat} (hj : j < n) :
    (s.readBytes m a n)[j]? = some (s.byte m (a + j)) := by
  simp [State.readBytes_eq_range, hj]

/-! ### The address region (41_framer.md R141 to R144) -/

/-- Byte `k` of the address region before shift and mark. -/
def State.addressByte (s : State) (k : Nat) : Byte :=
  if k < 6 then padAt s.dstCall k
  else if k = 6 then s.dstSsidByte
  else if k < 13 then padAt s.srcCall (k - 7)
  else if k = 13 then s.srcSsidByte
  else s.byte .path (k - 14)

/-- The five rows of the address region. -/
theorem address_rows (k : Nat) : k < 6 ∨ k = 6 ∨ (7 ≤ k ∧ k < 13) ∨ k = 13 ∨ 14 ≤ k := by omega

theorem State.addressPlain_getElem? (s : State) {k : Nat} (hk : k < 14 + s.pathBytes) :
    s.addressPlain[k]? = some (s.addressByte k) := by
  rcases address_rows k with h | rfl | h | rfl | h <;>
    simp (disch := omega) only [State.addressPlain, State.addressByte, List.append_assoc, List.getElem?_append,
      padCall_length, State.dstCall_length, State.srcCall_length, List.length_singleton, if_pos, if_neg]
  · exact padCall_getElem? _ _ h
  · rfl
  · exact padCall_getElem? _ _ (by simp; omega)
  · rfl
  · rw [State.readBytes_getElem? _ _ _ (by omega)]
    congr 2
    omega

/-- As stored, each address byte is shifted, and bit 0 is set in the last. -/
theorem State.addressRegion_getElem? (s : State) {k : Nat} (hk : k < 14 + s.pathBytes) :
    s.addressRegion[k]? = some (s.addressByte k <<< 1 ||| if k + 1 = 14 + s.pathBytes then 0x01 else 0x00) := by
  have hplain : s.addressPlain[k]'(by simpa using hk) = s.addressByte k :=
    (List.getElem_eq_iff _).2 (s.addressPlain_getElem? hk)
  rw [State.addressRegion, markLast_getElem? _ _ (by simpa using hk)]
  by_cases hlast : k + 1 = 14 + s.pathBytes <;> simp [hlast, hplain, shiftAddr]

/-- The address rows of the table of R140, as one. -/
theorem State.frameLayout_address (s : State) (f : BitVec 16) {k : Nat} (hk : k < 14 + s.pathBytes) :
    s.frameLayout f (s.preCount + k) =
      s.addressByte k <<< 1 ||| if k + 1 = 14 + s.pathBytes then 0x01 else 0x00 := by
  rcases address_rows k with h | rfl | h | rfl | h <;>
    simp (disch := omega) only [State.frameLayout, State.addressByte, if_pos, if_neg]
  · simp
  · simp [State.dstSsidByte, dstSsidBase, ssidNibble]
  · simp [Nat.add_sub_add_left]
  · simp [State.srcSsidByte, srcSsidBase, ssidNibble]
  · have hlast : s.preCount + k = s.preCount + 13 + s.pathBytes ↔ k + 1 = 14 + s.pathBytes := by omega
    simp only [hlast, Nat.add_sub_add_left]

/-! ### The frame (41_framer.md R140, R145 to R147) -/

/-- The FCS coverage is the table's rows from the first destination byte to the last payload byte, whatever the FCS. -/
theorem State.frameBody_getElem? (s : State) (f : BitVec 16) {k : Nat}
    (hk : k < 16 + s.pathBytes + s.payloadBytes) :
    s.frameBody[k]? = some (s.frameLayout f (s.preCount + k)) := by
  have hrows : k < 14 + s.pathBytes ∨ k = 14 + s.pathBytes ∨ k = 15 + s.pathBytes ∨ 16 + s.pathBytes ≤ k := by omega
  rcases hrows with h | rfl | rfl | h
  · rw [State.frameLayout_address s f h, ← s.addressRegion_getElem? h, State.frameBody, List.append_assoc,
      List.getElem?_append_left (by simpa using h)]
  all_goals
    simp (disch := omega) only [State.frameBody, State.frameLayout, List.append_assoc, List.getElem?_append,
      State.addressRegion_length, List.length_cons, List.length_nil, if_pos, if_neg]
  · simp [controlByte]
  · simp [pidByte, Nat.add_sub_add_right]
  · rw [State.readBytes_getElem? _ _ _ (by omega)]
    congr 2
    omega

/-- The frame is the table of R140, row by row. -/
theorem State.frameBytes_getElem? (s : State) {i : Nat} (hi : i < s.frameTotal) :
    s.frameBytes[i]? = some (s.frameLayout (crc16 s.frameBody) i) := by
  unfold State.frameTotal at hi
  rcases Nat.lt_or_ge i s.preCount with hflag | hflag
  · simp [State.frameBytes, State.frameLayout, List.getElem?_append, hflag, flagByte]
  obtain ⟨k, rfl⟩ := Nat.exists_eq_add_of_le hflag
  have hrows : k < 16 + s.pathBytes + s.payloadBytes ∨ k = 16 + s.pathBytes + s.payloadBytes ∨
      k = 17 + s.pathBytes + s.payloadBytes ∨ 18 + s.pathBytes + s.payloadBytes ≤ k := by omega
  rcases hrows with h | rfl | rfl | h
  · rw [← s.frameBody_getElem? _ h]
    simp [State.frameBytes, List.getElem?_append, h]
  all_goals
    simp (disch := omega) only [State.frameBytes, State.frameLayout, List.append_assoc, List.getElem?_append,
      fcsBytes_eq, List.length_replicate, State.frameBody_length, List.length_cons, List.length_nil, if_pos, if_neg]
  · simp
  · simp [Nat.add_sub_add_right]
  · rw [List.getElem?_replicate, if_pos (by omega)]
    rfl

/-- What a successful `BUILD` leaves in `FRAME_MEM` below T. -/
theorem State.built_byte_eq_layout (s : State) {i : Nat} (hi : i < s.frameTotal) :
    s.built.byte .frame i = s.frameLayout (crc16 s.frameBody) i := by
  rw [State.built_byte_frame, dif_pos hi]
  exact (List.getElem_eq_iff _).2 (s.frameBytes_getElem? hi)

/-- The FCS coverage as it stands in `FRAME_MEM` after `BUILD` (41_framer.md R146). -/
theorem State.built_readBytes_body (s : State) :
    s.built.readBytes .frame s.preCount (16 + s.pathBytes + s.payloadBytes) = s.frameBody := by
  have hroom : s.preCount + (16 + s.pathBytes + s.payloadBytes) ≤ s.frameTotal := by
    unfold State.frameTotal
    omega
  rw [s.built_readBytes_frame hroom]
  simp [State.frameBytes]

/-- `START_STUFF` is P - 1 as a 16-bit word, 0xFFFF where P = 0 (41_framer.md R148). -/
theorem ofNat_sub_one_eq_ofInt (n : Nat) : BitVec.ofNat 16 n - 1 = BitVec.ofInt 16 ((n : Int) - 1) := by
  rw [Int.sub_eq_add_neg, BitVec.ofInt_add, BitVec.ofInt_natCast, BitVec.sub_eq_add_neg]
  rfl

/-- Settles O19: the bytes stored are the table's rows, and the CRC is taken over those it covers. -/
theorem buildWritesTheFrameLayout : Obligations.BuildWritesTheFrameLayout := by
  intro s hfits
  refine ⟨_, exec_build_of_fits hfits, ?_, rfl, fun i hi => ?_⟩
  · rw [State.complete_regs, State.built_regs, ofNat_sub_one_eq_ofInt]
  · simp only [State.complete_byte]
    rw [← State.readBytes_eq_range, s.built_readBytes_body, s.built_byte_eq_layout hi]

/-! ### Address bytes as stored (41_framer.md R143, R151) -/

theorem exec_build_address_byte {s t : State} (hfits : s.buildFits) (hexec : exec .build s = .next t) {k : Nat}
    (hk : k < 14 + s.pathBytes) :
    t.byte .frame (s.preCount + k) =
      s.addressByte k <<< 1 ||| if k + 1 = 14 + s.pathBytes then 0x01 else 0x00 := by
  obtain rfl : s.built.complete .noError = t := Host.Outcome.next.inj ((exec_build_of_fits hfits).symm.trans hexec)
  have hin : s.preCount + k < s.frameTotal := by
    unfold State.frameTotal
    omega
  rw [State.complete_byte, s.built_byte_eq_layout hin, s.frameLayout_address _ hk]

/-- Settles O22: the SSID bytes are address bytes 6 and 13; byte 6 is never the last, byte 13 is where there is no
path. -/
theorem ssidBytesAsStored : Obligations.SsidBytesAsStored := by
  intro s t hfits hexec
  constructor
  · rw [exec_build_address_byte hfits hexec (by omega), if_neg (by omega)]
    simp [State.addressByte, State.dstSsidByte, dstSsidBase, ssidNibble, BitVec.shiftLeft_or_distrib]
  · rw [exec_build_address_byte hfits hexec (by omega)]
    simp [State.addressByte, State.srcSsidByte, srcSsidBase, ssidNibble, BitVec.shiftLeft_or_distrib]

/-- Settles O23: the shift clears bit 0 of every address byte and only the mark of the last sets it. -/
theorem addressExtensionBitMarksTheLastAddressByte : Obligations.AddressExtensionBitMarksTheLastAddressByte := by
  intro s t hfits hexec k hk
  rw [exec_build_address_byte hfits hexec hk]
  by_cases hlast : k + 1 = 14 + s.pathBytes <;> simp [hlast]

/-! ### Failing checks and the frame of BUILD (41_framer.md R149, R150) -/

theorem buildBody_of_badLen {s : State}
    (h : 56 < s.pathBytes ∨ s.pathBytes % 7 ≠ 0 ∨ s.cfg.payloadCap < s.payloadBytes) :
    buildBody s = (s.setFrameLen 0, .badLen) := by
  simp only [buildBody, Config.cap, pathCap]
  split
  · rfl
  · rw [if_pos (by omega)]

theorem buildBody_of_frameOverflow {s : State} (hpath : s.pathBytes ≤ 56) (hmod : s.pathBytes % 7 = 0)
    (hpayload : s.payloadBytes ≤ s.cfg.payloadCap) (htotal : s.cfg.frameCap < s.frameTotal) :
    buildBody s = (s.setFrameLen 0, .frameOverflow) := by
  simp only [buildBody, Config.cap, pathCap]
  rw [if_neg (by omega), if_neg (by omega), if_pos htotal]

/-- Settles O20: the body sets `FRAME_LEN` to 0 and gives the code of the first check that fails; completion adds
the rest. -/
theorem buildFailsWithoutWriting : Obligations.BuildFailsWithoutWriting := by
  have hfailed {s : State} {e : ErrCode} (hbody : buildBody s = (s.setFrameLen 0, e)) :
      exec .build s = .next ((s.setFrameLen 0).complete e) := by
    rw [exec, execBuild, finish, hbody]
  intro s
  exact ⟨fun hpath => hfailed (buildBody_of_badLen (by omega)),
    fun hpayload => hfailed (buildBody_of_badLen (.inr (.inr hpayload))),
    fun hpath hmod hpayload htotal => hfailed (buildBody_of_frameOverflow hpath hmod hpayload htotal)⟩

/-- Settles O21: a body that fails changes only `FRAME_LEN`, one that passes is `State.built`, whose bytes are known. -/
theorem buildChangesOnlyTheFrame : Obligations.BuildChangesOnlyTheFrame := by
  intro s t hexec
  have hsurround := exec_sameSurround hexec
  cases hexec
  rcases buildBody_cases s with ⟨-, e, he, hbody⟩ | ⟨-, hbody⟩ <;> rw [finish, hbody] at hsurround ⊢
  · exact ⟨rfl, fun _ => ⟨rfl, rfl⟩, fun m i _ => s.setFrameLen_byte 0 m i, fun i _ => s.setFrameLen_byte 0 .frame i,
      hsurround⟩
  · refine ⟨rfl, fun h => absurd rfl h, fun m i hm => ?_, fun i hi => ?_, hsurround⟩
    · rw [State.complete_byte, s.built_byte_ne m hm]
    · rw [State.complete_byte, State.built_byte_frame, dif_neg (Nat.not_lt.2 (hi rfl))]

end Sys2Proof.Machine
end

section
/-! PROOFS. `MODULATE` (42_afsk.md R170 to R182): the three ways it can end, each with the whole next
state. -/

namespace Sys2Proof.Machine

/-! ### The line code counts its cells (42_afsk.md R181) -/

theorem taggedBits_length (lo hi : Int) (i : Nat) (bs : List Byte) :
    (taggedBits lo hi i bs).length = 8 * bs.length := by
  induction bs generalizing i with
  | nil => rfl
  | cons b bs ih =>
    rw [taggedBits, List.length_append, ih, List.length_map, List.length_range, List.length_cons]
    omega

/-- One cell for each bit, and the stuffed ones. -/
theorem lineCode_length (l : Bool) (n : Nat) (xs : List (Bool × Bool)) :
    (lineCode l n xs).length = xs.length + stuffedCells n xs := by
  fun_induction stuffedCells n xs generalizing l with
  | case1 => rfl
  | case2 n b rest ih | case3 n rest ih =>
    simp only [lineCode, List.length_cons, ih]
    omega
  | case4 n rest h5 ih =>
    simp only [lineCode, if_pos h5, List.length_cons, ih]
    omega
  | case5 n rest h5 ih =>
    simp only [lineCode, if_neg h5, List.length_cons, ih]
    omega

theorem State.lineCells_length (s : State) :
    s.lineCells.length = 8 * s.frameCount + stuffedCells 0 s.inputBits := by
  rw [State.lineCells, lineCode_length, State.inputBits, taggedBits_length, List.length_map, List.length_range]

/-! ### The three ends of MODULATE -/

/-- What a MODULATE that has sent `cells` leaves: their samples, the phase after them, a level and a sample count. -/
def State.leaveCells (s : State) (cells : List Bool) (level : Bool) (count : Nat) : State :=
  { s with
    sampleMem := Memory.write s.sampleMem 0 (tones s.cfg.sampleRate s.cfg.spb s.startPhase cells)
    regs := { s.regs with
      sampleCount := BitVec.ofNat 17 count
      modPhase := BitVec.ofNat 16 (tonesPhase s.cfg.sampleRate s.cfg.spb s.startPhase cells)
      modLevel := level } }

/-- What a run leaves is told by the cells it has sent. -/
theorem State.modLeave_of_sent {s : State} {cells : List Bool} {m : Mod}
    (hsent : Mod.sent s.modEnv s.modStart cells m) (count : Nat) :
    s.modLeave m count = s.leaveCells cells m.level count := by
  obtain ⟨-, hout, hphase⟩ := hsent
  rw [s.modStart_eq] at hout hphase
  have hbytes : m.out.reverse = tones s.cfg.sampleRate s.cfg.spb s.startPhase cells := by
    rw [hout, List.append_nil, List.reverse_reverse]
    rfl
  have hphase' : m.phase = tonesPhase s.cfg.sampleRate s.cfg.spb s.startPhase cells := hphase
  rw [State.modLeave, hbytes, hphase']
  rfl

/-- The samples of `cells` at the front of `SAMPLE_MEM`, and behind them the old bytes. -/
theorem State.leaveCells_byte_sample (s : State) (cells : List Bool) (level : Bool) (count i : Nat) :
    (s.leaveCells cells level count).byte .sample i =
      ((tones s.cfg.sampleRate s.cfg.spb s.startPhase cells)[i]?).getD (s.byte .sample i) := by
  refine (s.byte_writeBytes .sample 0 (tones s.cfg.sampleRate s.cfg.spb s.startPhase cells) i).trans ?_
  generalize tones s.cfg.sampleRate s.cfg.spb s.startPhase cells = bs
  by_cases h : i < bs.length
  · simp [h]
  · simp [h]

/-- Only `SAMPLE_MEM` is written (20_memory.md R72). -/
theorem State.leaveCells_byte_ne (s : State) (cells : List Bool) (level : Bool) (count : Nat) {m : BlockMem}
    (hm : m ≠ .sample) (i : Nat) : (s.leaveCells cells level count).byte m i = s.byte m i :=
  s.byte_writeBytes_ne .sample m 0 (tones s.cfg.sampleRate s.cfg.spb s.startPhase cells) hm i

/-- Settles O27: the two checks come before anything else, so only the branch with a length out of range is left. -/
theorem modulateRejectsBadLengths : Obligations.ModulateRejectsBadLengths := by
  intro s hbad
  rcases modulateBody_cases s with ⟨-, hbody⟩ | ⟨hframe, hsample, -⟩
  · rw [exec, execModulate, hbody]
    rfl
  · omega

/-- With its lengths in range MODULATE sends the whole line code, or as many of its cells as MAX has room for. -/
theorem modulateBody_sends {s : State} (hlegal : s.cfg.legal = true) (hframe : s.frameCount ≤ s.cfg.frameCap)
    (hsample : s.sampleLimit ≤ s.cfg.sampleCap) :
    (s.lineCells.length ≤ s.sampleLimit / s.cfg.spb ∧
      modulateBody s = (s.leaveCells s.lineCells (s.lineCells.getLastD s.startLevel)
        (s.cfg.spb * s.lineCells.length), .noError)) ∨
    (s.sampleLimit / s.cfg.spb < s.lineCells.length ∧
      modulateBody s = (s.leaveCells (s.lineCells.take (s.sampleLimit / s.cfg.spb))
        (s.lineCells.getD (s.sampleLimit / s.cfg.spb) s.startLevel) 0, .sampleOverflow)) := by
  have hspb : 0 < s.modEnv.spb := spb_pos hlegal
  have hzero : s.modStart.n = 0 := by rw [s.modStart_eq]
  have hcode : lineCode s.modStart.level s.modStart.ones s.inputBits = s.lineCells := by
    rw [s.modStart_eq]
    rfl
  have hstart : s.modStart.level = s.startLevel := by rw [s.modStart_eq]
  rcases modulateBody_cases s with ⟨hbad, -⟩ | ⟨-, -, hbody⟩
  · omega
  rw [hbody]
  rcases Mod.run_cases s.modEnv s.inputBits s.modStart hspb (by rw [hzero]; exact Nat.zero_le _) with
    ⟨hfit, m, hrun, hsent, hlevel⟩ | ⟨pre, post, c, m, hcells, hfit, hfull, hrun, hsent, hlevel⟩
  · rw [hcode] at hfit hsent hlevel
    rw [hzero, Nat.zero_add] at hfit
    have hcount : m.n = s.cfg.spb * s.lineCells.length := by
      rw [hsent.1, hzero, Nat.zero_add]
      rfl
    refine .inl ⟨(Nat.le_div_iff_mul_le hspb).2 (by rwa [Nat.mul_comm]), ?_⟩
    rw [hrun, ← hstart, ← hlevel, ← hcount]
    exact congrArg (·, ErrCode.noError) (State.modLeave_of_sent hsent m.n)
  · rw [hcode] at hcells
    rw [hzero, Nat.zero_add] at hfit hfull
    have hroom : s.sampleLimit / s.cfg.spb = pre.length :=
      Nat.div_eq_of_lt_le (by rw [Nat.mul_comm]; exact hfit) (by rw [Nat.mul_comm]; exact hfull)
    refine .inr ⟨by rw [hcells, hroom, List.length_append, List.length_cons]; omega, ?_⟩
    have htake : s.lineCells.take pre.length = pre := by rw [hcells, List.take_left']; rfl
    have hget : s.lineCells.getD pre.length s.startLevel = m.level := by rw [hcells, hlevel]; simp
    rw [hrun, hroom, htake, hget]
    exact congrArg (·, ErrCode.sampleOverflow) (State.modLeave_of_sent hsent 0)

/-- The inversion of MODULATE in a legal build. -/
theorem exec_modulate_cases {s t : State} (hlegal : s.cfg.legal = true) (hexec : exec .modulate s = .next t) :
    t = s.clearSampleCount.complete .badLen ∨
    (s.lineCells.length ≤ s.sampleLimit / s.cfg.spb ∧ s.sampleLimit ≤ s.cfg.sampleCap ∧
      t = (s.leaveCells s.lineCells (s.lineCells.getLastD s.startLevel)
        (s.cfg.spb * s.lineCells.length)).complete .noError) ∨
    (s.sampleLimit / s.cfg.spb < s.lineCells.length ∧
      t = (s.leaveCells (s.lineCells.take (s.sampleLimit / s.cfg.spb))
        (s.lineCells.getD (s.sampleLimit / s.cfg.spb) s.startLevel) 0).complete .sampleOverflow) := by
  cases hexec
  by_cases hbad : s.cfg.frameCap < s.frameCount ∨ s.cfg.sampleCap < s.sampleLimit
  · exact .inl (Host.Outcome.next.inj (modulateRejectsBadLengths s hbad))
  · obtain ⟨hframe, hsample⟩ := not_or.1 hbad
    rcases modulateBody_sends hlegal (Nat.le_of_not_lt hframe) (Nat.le_of_not_lt hsample) with
      ⟨hfit, hbody⟩ | ⟨hfull, hbody⟩
    · exact .inr (.inl ⟨hfit, Nat.le_of_not_lt hsample, by rw [hbody]; rfl⟩)
    · exact .inr (.inr ⟨hfull, by rw [hbody]; rfl⟩)

/-- Settles O26: all cells fit, or the run ends at the first that does not. -/
theorem modulateSendsTheLineCodeAsTones : Obligations.ModulateSendsTheLineCodeAsTones := by
  intro s hlegal hframe hsample spb rate room sent
  rcases modulateBody_sends hlegal hframe hsample with ⟨hfit, hbody⟩ | ⟨hfull, hbody⟩
  · refine ⟨fun _ => ?_, fun h => absurd h (Nat.not_lt.2 hfit)⟩
    rw [exec, execModulate, hbody]
    rfl
  · refine ⟨fun h => absurd h (Nat.not_le.2 hfull), fun _ => ?_⟩
    rw [exec, execModulate, hbody]
    rfl

/-! ### A successful MODULATE -/

/-- `SAMPLE_COUNT` holds the number of samples of cells that fit. -/
theorem toNat_sampleCount {c : Config} (hlegal : c.legal = true) {k limit : Nat} (hk : k ≤ limit / c.spb)
    (hlimit : limit ≤ c.sampleCap) : (BitVec.ofNat 17 (c.spb * k)).toNat = c.spb * k ∧ c.spb * k ≤ limit := by
  obtain ⟨-, -, -, -, -, -, -, -, hcap⟩ := legal_bounds hlegal
  have hle : c.spb * k ≤ limit := (Nat.mul_le_mul_left _ hk).trans (Nat.mul_div_le _ _)
  exact ⟨by rw [BitVec.toNat_ofNat, Nat.mod_eq_of_lt (by omega)], hle⟩

/-- Code 0 says that all cells were sent. -/
theorem exec_modulate_noError {s t : State} (hlegal : s.cfg.legal = true) (hexec : exec .modulate s = .next t)
    (hok : t.regs.errCode = .noError) :
    t.regs.sampleCount.toNat = s.cfg.spb * s.lineCells.length ∧
      t = (s.leaveCells s.lineCells (s.lineCells.getLastD s.startLevel)
        (s.cfg.spb * s.lineCells.length)).complete .noError := by
  rcases exec_modulate_cases hlegal hexec with ht | ⟨hfit, hsample, ht⟩ | ⟨-, ht⟩
  · subst ht
    cases hok
  · refine ⟨?_, ht⟩
    subst ht
    exact (toNat_sampleCount hlegal hfit hsample).1
  · subst ht
    cases hok

/-- Settles O29: `SAMPLE_COUNT` counts the cells of the line code, one for each bit and the stuffed ones. -/
theorem sampleCountCountsTheCells : Obligations.SampleCountCountsTheCells := by
  intro s t hlegal hexec hok
  rw [(exec_modulate_noError hlegal hexec hok).1, s.lineCells_length]

/-- Behind the samples of `cells` the bytes of `SAMPLE_MEM` are the old ones. -/
theorem State.leaveCells_byte_sample_of_le (s : State) (cells : List Bool) (level : Bool) (count : Nat) {i : Nat}
    (hi : s.cfg.spb * cells.length ≤ i) : (s.leaveCells cells level count).byte .sample i = s.byte .sample i := by
  rw [s.leaveCells_byte_sample, List.getElem?_eq_none (by rw [tones_length]; exact hi)]
  rfl

/-- Settles O28: each of the three ends stores a known number of samples and changes no other register. -/
theorem modulateChangesOnlyTheSamples : Obligations.ModulateChangesOnlyTheSamples := by
  intro s t hlegal hexec n
  have hsurround := exec_sameSurround hexec
  rcases exec_modulate_cases hlegal hexec with ht | ⟨hfit, hsample, ht⟩ | ⟨hfull, ht⟩
  · subst ht
    exact ⟨rfl, fun m i _ => by simp, fun i _ => by simp, Nat.zero_le _, hsurround⟩
  · obtain ⟨hcount, hle⟩ := toNat_sampleCount hlegal hfit hsample
    subst ht
    have hn : n = s.cfg.spb * s.lineCells.length := hcount
    refine ⟨rfl, fun m i hm => ?_, fun i hi => ?_, hn.trans_le hle, hsurround⟩
    · rw [State.complete_byte, s.leaveCells_byte_ne _ _ _ hm]
    · rw [State.complete_byte, s.leaveCells_byte_sample_of_le _ _ _ (hn ▸ hi)]
  · subst ht
    have hn : n = s.cfg.spb * (s.sampleLimit / s.cfg.spb) := rfl
    refine ⟨rfl, fun m i hm => ?_, fun i hi => ?_, hn.trans_le (Nat.mul_div_le _ _), hsurround⟩
    · rw [State.complete_byte, s.leaveCells_byte_ne _ _ _ hm]
    · rw [State.complete_byte, s.leaveCells_byte_sample_of_le]
      rw [List.length_take, Nat.min_eq_left hfull.le]
      exact hn ▸ hi

end Sys2Proof.Machine
end

section
/-! PROOFS. A receiver of the line code (42_afsk.md R183): each bit's cells give the bit back. -/

namespace Sys2Proof.Machine

/-! ### Receivers of a line code -/

/-- A receiver told which bits lie in the region gets the bits of any line code back. -/
theorem receive_lineCode (l : Bool) (n : Nat) (xs : List (Bool × Bool)) :
    receive l n (xs.map Prod.fst) (lineCode l n xs) = xs.map Prod.snd := by
  fun_induction lineCode l n xs with
  | case1 => rfl
  | case2 l n b rest ih => cases b <;> simpa [receive] using ih
  | case3 l n rest ih => simpa [receive] using ih
  | case4 l n rest h5 ih => simpa [receive, h5] using ih
  | case5 l n rest h5 ih => simpa [receive, h5] using ih

/-- Outside the region the line code is NRZI alone (42_afsk.md R178). -/
theorem nrziDecode_lineCode {xs : List (Bool × Bool)} (hout : ∀ x ∈ xs, x.1 = false) (l : Bool) (n : Nat) :
    nrziDecode l (lineCode l n xs) = xs.map Prod.snd := by
  fun_induction lineCode l n xs with
  | case1 => rfl
  | case2 l n b rest ih =>
    have := ih fun x hx => hout x (List.mem_cons_of_mem _ hx)
    cases b <;> simpa [nrziDecode] using this
  | case3 l n rest ih => cases hout _ List.mem_cons_self
  | case4 l n rest h5 ih => cases hout _ List.mem_cons_self
  | case5 l n rest h5 ih => cases hout _ List.mem_cons_self

/-- Inside the region every cell after five ones is a stuffed one (42_afsk.md R177). -/
theorem unstuff_nrziDecode_lineCode {xs : List (Bool × Bool)} (hin : ∀ x ∈ xs, x.1 = true) (l : Bool) {n : Nat}
    (hn : n < 5) : unstuff n (nrziDecode l (lineCode l n xs)) = xs.map Prod.snd := by
  fun_induction lineCode l n xs with
  | case1 => rfl
  | case2 l n b rest ih => cases hin _ List.mem_cons_self
  | case3 l n rest ih =>
    have := ih (fun x hx => hin x (List.mem_cons_of_mem _ hx)) (by decide)
    simpa [nrziDecode, unstuff, hn.ne] using this
  | case4 l n rest h5 ih =>
    have := ih (fun x hx => hin x (List.mem_cons_of_mem _ hx)) (by decide)
    simpa [nrziDecode, unstuff, hn.ne, h5] using this
  | case5 l n rest h5 ih =>
    have := ih (fun x hx => hin x (List.mem_cons_of_mem _ hx)) (by omega)
    simpa [nrziDecode, unstuff, hn.ne] using this

/-! ### The bits of a frame -/

/-- The input bits as one list over the bytes' indices, each byte told by its index. -/
theorem taggedBits_eq_flatMap (lo hi : Int) (n i : Nat) (f : Nat → Byte) :
    taggedBits lo hi i ((List.range' i n).map f) = (List.range' i n).flatMap fun k : Nat =>
      (List.range 8).map fun j => (decide (lo < (k : Int) ∧ (k : Int) < hi), (f k).getLsbD j) := by
  induction n generalizing i with
  | zero => rfl
  | succ n ih => rw [List.range'_succ, List.map_cons, taggedBits, ih, List.flatMap_cons]

theorem State.inputBits_eq (s : State) :
    s.inputBits = (List.range s.frameCount).flatMap fun k : Nat =>
      (List.range 8).map fun j =>
        (decide (s.stuffStart < (k : Int) ∧ (k : Int) < s.stuffEnd), (s.byte .frame k).getLsbD j) := by
  rw [State.inputBits, List.range_eq_range', taggedBits_eq_flatMap]

/-- The tags alone are what the receiver is told (42_afsk.md R176). -/
theorem State.inputBits_map_fst (s : State) : s.inputBits.map Prod.fst = s.regionBits := by
  rw [s.inputBits_eq, List.map_flatMap]
  rfl

/-- The frame's bits, LSB first within each byte (42_afsk.md R174). -/
theorem State.inputBits_map_snd (s : State) :
    s.inputBits.map Prod.snd =
      (List.range s.frameCount).flatMap fun i => (List.range 8).map (s.byte .frame i).getLsbD := by
  rw [s.inputBits_eq, List.map_flatMap]
  rfl

/-- Each input bit is tagged by the region test of some byte of the frame. -/
theorem State.tag_of_mem_inputBits {s : State} {x : Bool × Bool} (hx : x ∈ s.inputBits) :
    ∃ i < s.frameCount, x.1 = decide (s.stuffStart < (i : Int) ∧ (i : Int) < s.stuffEnd) := by
  rw [s.inputBits_eq, List.mem_flatMap] at hx
  obtain ⟨i, hi, hx⟩ := hx
  obtain ⟨j, -, rfl⟩ := List.mem_map.1 hx
  exact ⟨i, List.mem_range.1 hi, rfl⟩

/-- Settles O30: the cells are those of the line code, which each of the three receivers undoes. -/
theorem receiverRecoversTheFrame : Obligations.ReceiverRecoversTheFrame := by
  intro s t hlegal hexec hok bits
  have hbits : s.inputBits.map Prod.snd = bits := s.inputBits_map_snd
  obtain ⟨hcount, rfl⟩ := exec_modulate_noError hlegal hexec hok
  refine ⟨s.lineCells, ?_, ?_, fun hout => ?_, fun hin => ?_⟩
  · refine List.ext_getElem (by rw [List.length_map, List.length_range, hcount, tones_length]) fun i _ hi => ?_
    rw [List.getElem_map, List.getElem_range, State.complete_byte, s.leaveCells_byte_sample,
      List.getElem?_eq_getElem hi, Option.getD_some]
  · rw [← hbits, ← s.inputBits_map_fst]
    exact receive_lineCode _ _ _
  · rw [← hbits]
    refine nrziDecode_lineCode (fun x hx => ?_) _ _
    obtain ⟨i, hi, htag⟩ := State.tag_of_mem_inputBits hx
    rw [htag, decide_eq_false (hout i hi)]
  · rw [← hbits]
    refine unstuff_nrziDecode_lineCode (fun x hx => ?_) _ (by decide)
    obtain ⟨i, hi, htag⟩ := State.tag_of_mem_inputBits hx
    rw [htag, decide_eq_true (hin i hi)]

end Sys2Proof.Machine
end

section
/-! PROOFS. The accuracy of `SINE` before rounding (42_afsk.md R171): the fraction of Machine/Sine.lean against the sine
of real analysis. The polynomial against the sine on the first quadrant, the cut of π, then the whole circle. -/

namespace Sys2Proof.Machine

/-! ### The Taylor polynomial -/

/-- The real value of `sineSeries`, at `y = x²`. -/
noncomputable def nestedSine (y : ℝ) : (j terms : Nat) → ℝ
  | _, 0 => 1
  | j, terms + 1 => 1 - y / ((2 * j) * (2 * j + 1)) * nestedSine y (j + 1) terms

/-- Where x² ≤ 6 no subtraction of `sineSeries` is cut off, so it computes the real value. -/
theorem sineSeries_spec {u w : Nat} (hw : 0 < w) (hu : u ≤ 6 * w) (terms : Nat) {j : Nat} (hj : 0 < j) :
    0 < (sineSeries u w j terms).2 ∧ (sineSeries u w j terms).1 ≤ (sineSeries u w j terms).2 ∧
      ((sineSeries u w j terms).1 : ℝ) / (sineSeries u w j terms).2 = nestedSine (u / w) j terms := by
  induction terms generalizing j with
  | zero => simp [sineSeries, nestedSine]
  | succ terms ih =>
    obtain ⟨hpos, hle, hval⟩ := ih j.succ_pos
    simp only [sineSeries, nestedSine, ← hval]
    generalize (sineSeries u w (j + 1) terms).1 = a at *
    generalize (sineSeries u w (j + 1) terms).2 = b at *
    have hfactor : 6 * w ≤ w * (2 * j) * (2 * j + 1) := by nlinarith [Nat.mul_le_mul_left w hj]
    have hsub : u * a ≤ w * (2 * j) * (2 * j + 1) * b := Nat.mul_le_mul (hu.trans hfactor) hle
    refine ⟨by positivity, Nat.sub_le _ _, ?_⟩
    rw [Nat.cast_sub hsub]
    push_cast
    field_simp

/-- The imaginary part of the exponential series at `x i` is the sine series. -/
theorem im_exp_series (x : ℝ) (n : Nat) :
    (∑ m ∈ Finset.range (2 * n + 1), ((x : ℂ) * Complex.I) ^ m / (m.factorial : ℂ)).im =
      ∑ i ∈ Finset.range n, (-1) ^ i * x ^ (2 * i + 1) / ((2 * i + 1).factorial : ℝ) := by
  have heven (i : Nat) : ((x : ℂ) * Complex.I) ^ (2 * i) = ((-1) ^ i * x ^ (2 * i) : ℝ) := by
    rw [mul_pow, pow_mul Complex.I, Complex.I_sq]
    push_cast
    ring
  have hodd (i : Nat) : ((x : ℂ) * Complex.I) ^ (2 * i + 1) = ((-1) ^ i * x ^ (2 * i + 1) : ℝ) * Complex.I := by
    rw [pow_succ, heven]
    push_cast
    ring
  induction n with
  | zero => simp
  | succ n ih =>
    rw [Nat.mul_succ, Finset.sum_range_succ _ (2 * n + 2), Finset.sum_range_succ _ (2 * n + 1),
      Finset.sum_range_succ _ n, ← ih, ← Nat.mul_succ, heven, hodd]
    simp only [Complex.add_im, Complex.div_natCast_im, Complex.ofReal_im, Complex.im_ofReal_mul, Complex.I_im,
      zero_div, add_zero, mul_one]

/-- The polynomial of degree 17 that `quarterSine` computes, on the first quadrant. -/
theorem abs_sin_sub_nestedSine_le {x : ℝ} (h0 : 0 ≤ x) (h1 : x ≤ 8 / 5) :
    |x * nestedSine (x ^ 2) 1 8 - Real.sin x| ≤ 1 / 1000000000000 := by
  have hnested : x * nestedSine (x ^ 2) 1 8 =
      ∑ i ∈ Finset.range 9, (-1) ^ i * x ^ (2 * i + 1) / ((2 * i + 1).factorial : ℝ) := by
    simp only [nestedSine, Finset.sum_range_succ, Finset.sum_range_zero, Nat.factorial]
    push_cast
    ring
  have hnorm : ‖(x : ℂ) * Complex.I‖ = x := by simp [abs_of_nonneg h0]
  have hexp := Complex.exp_bound' (x := (x : ℂ) * Complex.I) (n := 19) (by rw [hnorm]; norm_num; linarith)
  have him := (Complex.abs_im_le_norm _).trans hexp
  rw [Complex.sub_im, Complex.exp_ofReal_mul_I_im, im_exp_series x 9, ← hnested, hnorm, abs_sub_comm] at him
  calc |x * nestedSine (x ^ 2) 1 8 - Real.sin x| ≤ x ^ 19 / (Nat.factorial 19 : ℝ) * 2 := him
    _ ≤ (8 / 5) ^ 19 / (Nat.factorial 19 : ℝ) * 2 := by gcongr
    _ ≤ 1 / 1000000000000 := by norm_num [Nat.factorial]

/-! ### The first quadrant -/

/-- The rational angle that stands for `2πk/rate`. -/
noncomputable def cutAngle (rate k : Nat) : ℝ := (2 * k * piNum : Nat) / (rate * piDen : Nat)

/-- Inside the first quadrant the cut of π moves the angle by less than 10^-20. -/
theorem abs_cutAngle_sub_le {rate k : Nat} (hrate : 0 < rate) (hk : 4 * k ≤ rate) :
    |cutAngle rate k - 2 * Real.pi * k / rate| ≤ 1 / 100000000000000000000 := by
  have hrate' : (0 : ℝ) < rate := by exact_mod_cast hrate
  have hratio : (k : ℝ) / rate ≤ 1 / 4 := by
    rw [div_le_div_iff₀ hrate' (by norm_num)]
    exact_mod_cast (by omega : k * 4 ≤ 1 * rate)
  have hratio0 : 0 ≤ (k : ℝ) / rate := by positivity
  have heq : cutAngle rate k - 2 * Real.pi * k / rate =
      2 * (k / rate) * (3.14159265358979323846 - Real.pi) := by
    unfold cutAngle piNum piDen
    push_cast
    field_simp
    ring
  rw [heq, abs_le]
  constructor <;> nlinarith [Real.pi_gt_d20, Real.pi_lt_d20]

/-- π/2 < 8/5, for the cut angle too. -/
theorem cutAngle_mem {rate k : Nat} (hrate : 0 < rate) (hk : 4 * k ≤ rate) :
    0 ≤ cutAngle rate k ∧ cutAngle rate k ≤ 8 / 5 := by
  refine ⟨by unfold cutAngle; positivity, ?_⟩
  have hden : 0 < rate * piDen := Nat.mul_pos hrate (by decide)
  unfold cutAngle
  rw [div_le_div_iff₀ (by exact_mod_cast hden) (by norm_num)]
  have : 2 * k * piNum * 5 ≤ 8 * (rate * piDen) := by
    unfold piNum piDen
    omega
  exact_mod_cast this

/-- Away from one twelfth of the circle `quarterSine` is the Taylor polynomial at the cut angle. -/
theorem quarterSine_of_ne {rate k : Nat} (hrate : 0 < rate) (hk : 4 * k ≤ rate) (hne : 12 * k ≠ rate) :
    0 < (quarterSine rate k).2 ∧
      ((quarterSine rate k).1 : ℝ) / (quarterSine rate k).2 =
        cutAngle rate k * nestedSine (cutAngle rate k ^ 2) 1 8 := by
  have hden : 0 < rate * piDen := Nat.mul_pos hrate (by decide)
  have hsq : (2 * k * piNum) * (2 * k * piNum) ≤ 6 * ((rate * piDen) * (rate * piDen)) := by
    have : 2 * k * piNum ≤ 2 * (rate * piDen) := by
      unfold piNum piDen
      omega
    refine (Nat.mul_le_mul this this).trans ?_
    rw [Nat.mul_mul_mul_comm]
    exact Nat.mul_le_mul_right _ (by decide)
  obtain ⟨hpos, -, hval⟩ := sineSeries_spec (Nat.mul_pos hden hden) hsq 8 (Nat.one_pos)
  have hangle : cutAngle rate k ^ 2 =
      ((2 * k * piNum * (2 * k * piNum) : Nat) : ℝ) / (rate * piDen * (rate * piDen) : Nat) := by
    unfold cutAngle
    push_cast
    ring
  rw [quarterSine, if_neg hne, hangle, ← hval]
  refine ⟨Nat.mul_pos hden hpos, ?_⟩
  rw [cutAngle, div_mul_div_comm, ← Nat.cast_mul, ← Nat.cast_mul]

/-- At one twelfth of the circle `quarterSine` is 1/2. -/
theorem quarterSine_of_eq {rate k : Nat} (h : 12 * k = rate) : quarterSine rate k = (1, 2) := if_pos h

theorem quarterSine_den_pos {rate k : Nat} (hrate : 0 < rate) (hk : 4 * k ≤ rate) : 0 < (quarterSine rate k).2 := by
  by_cases h : 12 * k = rate
  · rw [quarterSine_of_eq h]
    decide
  · exact (quarterSine_of_ne hrate hk h).1

/-- At one twelfth of the circle the sine is exact (R171's halfway cases). -/
theorem quarterSine_exact {rate k : Nat} (hrate : 0 < rate) (h : 12 * k = rate) :
    ((quarterSine rate k).1 : ℝ) / (quarterSine rate k).2 = Real.sin (2 * Real.pi * k / rate) := by
  have hk : (0 : ℝ) < k := by exact_mod_cast (by omega : 0 < k)
  have hangle : 2 * Real.pi * k / rate = Real.pi / 6 := by
    rw [← h]
    push_cast
    field_simp
    norm_num
  rw [quarterSine_of_eq h, hangle, Real.sin_pi_div_six]
  norm_num

theorem abs_quarterSine_sub_sin_le {rate k : Nat} (hrate : 0 < rate) (hk : 4 * k ≤ rate) :
    |((quarterSine rate k).1 : ℝ) / (quarterSine rate k).2 - Real.sin (2 * Real.pi * k / rate)| ≤
      2 / 1000000000000 := by
  by_cases h : 12 * k = rate
  · rw [quarterSine_exact hrate h, sub_self, abs_zero]
    norm_num
  · rw [(quarterSine_of_ne hrate hk h).2]
    obtain ⟨h0, h1⟩ := cutAngle_mem hrate hk
    calc _ ≤ |cutAngle rate k * nestedSine (cutAngle rate k ^ 2) 1 8 - Real.sin (cutAngle rate k)| +
          |Real.sin (cutAngle rate k) - Real.sin (2 * Real.pi * k / rate)| := abs_sub_le _ _ _
      _ ≤ 1 / 1000000000000 + 1 / 100000000000000000000 :=
          add_le_add (abs_sin_sub_nestedSine_le h0 h1)
            ((Real.abs_sin_sub_sin_le _ _).trans (abs_cutAngle_sub_le hrate hk))
      _ ≤ 2 / 1000000000000 := by norm_num

/-! ### The whole circle -/

theorem sinePositive_eq_true {rate p : Nat} (hp : p < rate) (h : 2 * p + 2 ≤ rate) :
    sinePositive rate p = true := by
  rw [sinePositive, Nat.mod_eq_of_lt hp, decide_eq_true_eq]
  omega

theorem sinePositive_eq_false {rate p : Nat} (hp : p < rate) (h : rate ≤ 2 * p) : sinePositive rate p = false := by
  rw [sinePositive, Nat.mod_eq_of_lt hp, decide_eq_false_iff_not]
  omega

/-- How a phase stands to its first-quadrant phase, quadrant by quadrant; the latter is at most a quarter of the
circle. -/
theorem quarterPhase_cases {rate p : Nat} (heven : rate % 2 = 0) (hp : p < rate) :
    4 * quarterPhase rate p ≤ rate ∧
      ((sinePositive rate p = true ∧ (p = quarterPhase rate p ∨ 2 * p + 2 * quarterPhase rate p = rate)) ∨
       (sinePositive rate p = false ∧
        (2 * p = 2 * quarterPhase rate p + rate ∨ p + quarterPhase rate p = rate))) := by
  have hmod : p % (rate / 2) = if p < rate / 2 then p else p - rate / 2 := by
    split
    next h => exact Nat.mod_eq_of_lt h
    next h => rw [Nat.mod_eq_sub_mod (by omega), Nat.mod_eq_of_lt (by omega)]
  simp only [quarterPhase, sinePositive, Nat.mod_eq_of_lt hp, hmod, decide_eq_true_eq, decide_eq_false_iff_not]
  split <;> split <;> omega

/-- The sine at a phase is that of its first-quadrant phase, with the sign of its half of the circle. -/
theorem sin_phase {rate p : Nat} (heven : rate % 2 = 0) (hp : p < rate) :
    Real.sin (2 * Real.pi * p / rate) =
      if sinePositive rate p then Real.sin (2 * Real.pi * quarterPhase rate p / rate)
      else -Real.sin (2 * Real.pi * quarterPhase rate p / rate) := by
  have hrate : (rate : ℝ) ≠ 0 := by exact_mod_cast (by omega : rate ≠ 0)
  obtain ⟨-, ⟨hsign, h | h⟩ | ⟨hsign, h | h⟩⟩ := quarterPhase_cases heven hp <;> rw [hsign]
  · rw [if_pos rfl, ← h]
  · have hr : (2 * p + 2 * quarterPhase rate p : ℝ) = rate := by exact_mod_cast h
    rw [if_pos rfl, ← Real.sin_pi_sub]
    congr 1
    field_simp
    linear_combination (-1 : ℝ) * hr
  · have hr : (2 * p : ℝ) = 2 * quarterPhase rate p + rate := by exact_mod_cast h
    rw [if_neg Bool.false_ne_true, ← Real.sin_add_pi]
    congr 1
    field_simp
    linear_combination hr
  · have hr : (p + quarterPhase rate p : ℝ) = rate := by exact_mod_cast h
    rw [if_neg Bool.false_ne_true, ← Real.sin_two_pi_sub]
    congr 1
    field_simp
    linear_combination hr

/-- 127 × (sin + 1) in real arithmetic (42_afsk.md R171). -/
noncomputable def exactSample (rate p : Nat) : ℝ := 127 * (Real.sin (2 * Real.pi * p / rate) + 1)

/-- What `SINE` rounds, as a real number. -/
noncomputable def sampleValue (rate p : Nat) : ℝ :=
  ((sampleFraction rate p).1 : ℝ) / ((sampleFraction rate p).2 : ℝ)

/-- The error of the first quadrant, times 127, is that of the sample; the subtraction that is cut off where the
polynomial exceeds 1 only takes the fraction nearer to the true value. -/
theorem abs_sampleValue_sub_le {rate p : Nat} {ε : ℝ} (heven : rate % 2 = 0) (hp : p < rate)
    (h : |((quarterSine rate (quarterPhase rate p)).1 : ℝ) / (quarterSine rate (quarterPhase rate p)).2 -
      Real.sin (2 * Real.pi * quarterPhase rate p / rate)| ≤ ε) :
    |sampleValue rate p - exactSample rate p| ≤ 127 * ε := by
  have hpos : (0 : ℝ) < (quarterSine rate (quarterPhase rate p)).2 := by
    exact_mod_cast quarterSine_den_pos (by omega) (quarterPhase_cases heven hp).1
  rw [exactSample, sin_phase heven hp, sampleValue, sampleFraction]
  have hle := Real.sin_le_one (2 * Real.pi * quarterPhase rate p / rate)
  generalize Real.sin (2 * Real.pi * quarterPhase rate p / rate) = x at *
  generalize quarterSine rate (quarterPhase rate p) = r at *
  rw [abs_le] at h ⊢
  obtain ⟨hlo, hhi⟩ := h
  cases sinePositive rate p
  · rw [if_neg Bool.false_ne_true, if_neg Bool.false_ne_true, Nat.cast_mul]
    rcases Nat.le_total r.1 r.2 with hr | hr
    · rw [Nat.cast_sub hr, mul_div_assoc, sub_div, div_self hpos.ne']
      push_cast
      constructor <;> linarith
    · have hone : (1 : ℝ) ≤ r.1 / r.2 := (one_le_div hpos).2 (by exact_mod_cast hr)
      rw [Nat.sub_eq_zero_of_le hr]
      simp only [Nat.cast_zero, mul_zero, zero_div]
      constructor <;> linarith
  · rw [if_pos rfl, if_pos rfl, Nat.cast_mul, Nat.cast_add, mul_div_assoc, add_div, div_self hpos.ne']
    push_cast
    constructor <;> linarith

theorem abs_sampleValue_sub_exactSample_le {rate p : Nat} (heven : rate % 2 = 0) (hp : p < rate) :
    |sampleValue rate p - exactSample rate p| ≤ 1 / 1000000000 := by
  have hquarter := abs_quarterSine_sub_sin_le (by omega) (quarterPhase_cases heven hp).1
  exact (abs_sampleValue_sub_le heven hp hquarter).trans (by norm_num)

theorem sampleValue_exact {rate p : Nat} (heven : rate % 2 = 0) (hp : p < rate)
    (h : 12 * quarterPhase rate p = rate) : sampleValue rate p = exactSample rate p := by
  have hzero := abs_sampleValue_sub_le heven hp (ε := 0) (by rw [quarterSine_exact (by omega) h, sub_self, abs_zero])
  rw [mul_zero] at hzero
  exact sub_eq_zero.1 (abs_eq_zero.1 (le_antisymm hzero (abs_nonneg _)))

theorem sampleFraction_den_pos {rate p : Nat} (heven : rate % 2 = 0) (hp : p < rate) :
    0 < (sampleFraction rate p).2 :=
  quarterSine_den_pos (by omega) (quarterPhase_cases heven hp).1

/-- The rate of a legal build is even and positive (00_scope.md R7). -/
theorem legal_rate_even {c : Config} (h : c.legal = true) : c.sampleRate % 2 = 0 := by
  obtain ⟨hmod, -⟩ := legal_bounds h
  omega

/-- At a halfway case the fraction is 381/2 on the first half of the circle and 127/2 on the second. -/
theorem sampleFraction_of_twelfth {rate p : Nat} (h : 12 * quarterPhase rate p = rate) :
    sampleFraction rate p = (if sinePositive rate p then 381 else 127, 2) := by
  rw [sampleFraction, quarterSine_of_eq h]
  split <;> rfl

/-- Settles O32: the accuracy of the first quadrant carried over the circle, and the four phases whose first-quadrant
phase is one twelfth of the circle. -/
theorem sampleFractionIsAccurate : Obligations.SampleFractionIsAccurate := by
  intro c hlegal p hp
  have heven := legal_rate_even hlegal
  have hcases := quarterPhase_cases heven hp
  refine ⟨abs_sampleValue_sub_exactSample_le heven hp, fun h => ?_, fun h => ?_⟩
  · have hsign : sinePositive c.sampleRate p = true := sinePositive_eq_true hp (by omega)
    rw [sampleFraction_of_twelfth (by omega), hsign]
    rfl
  · have hsign : sinePositive c.sampleRate p = false := sinePositive_eq_false hp (by omega)
    rw [sampleFraction_of_twelfth (by omega), hsign]
    rfl

end Sys2Proof.Machine
end

section
/-! PROOFS. The rounding of a sample (42_afsk.md R171; 00_scope.md R11): its range at every rate, and its exact value at
the default rate. -/

namespace Sys2Proof.Machine

/-! ### Rounding -/

/-- `round_half_away` of a fraction is the floor of its value plus one half (00_scope.md R11). -/
theorem roundHalfUp_eq_floor (num : Nat) {den : Nat} (hden : 0 < den) :
    (roundHalfUp num den : ℤ) = ⌊(num : ℝ) / den + 1 / 2⌋ := by
  have hden' : (0 : ℝ) < den := by exact_mod_cast hden
  have hvalue : (num : ℝ) / den + 1 / 2 = ((2 * num + den : Nat) : ℝ) / (2 * den : Nat) := by
    push_cast
    field_simp
  rw [hvalue, ← Int.natCast_floor_eq_floor (by positivity), Nat.floor_div_eq_div]
  rfl

/-- No sample exceeds 254, since 127 × (sin + 1) does not and the error of the fraction is below one half. -/
theorem roundHalfUp_sampleFraction_le {rate p : Nat} (heven : rate % 2 = 0) (hp : p < rate) :
    roundHalfUp (sampleFraction rate p).1 (sampleFraction rate p).2 ≤ 254 := by
  have hround := roundHalfUp_eq_floor (sampleFraction rate p).1 (sampleFraction_den_pos heven hp)
  have herror := (abs_le.1 (abs_sampleValue_sub_exactSample_le heven hp)).2
  have hsin := Real.sin_le_one (2 * Real.pi * p / rate)
  have hlt : ⌊sampleValue rate p + 1 / 2⌋ < 255 := by
    rw [Int.floor_lt]
    unfold exactSample at herror
    push_cast
    linarith
  rw [← sampleValue] at hround
  omega

/-- The byte `SINE` gives is the rounded fraction: it never wraps. -/
theorem sine_toNat {rate p : Nat} (heven : rate % 2 = 0) (hp : p < rate) :
    (sine rate p).toNat = roundHalfUp (sampleFraction rate p).1 (sampleFraction rate p).2 := by
  have hle := roundHalfUp_sampleFraction_le heven hp
  rw [sine, BitVec.toNat_ofNat, Nat.mod_eq_of_lt (by omega)]

/-- Settles O34: a phase counts modulo the rate, and below it the rounded fraction is at most 254. -/
theorem samplesNeverExceed254 : Obligations.SamplesNeverExceed254 := by
  intro c hlegal p
  have heven := legal_rate_even hlegal
  obtain ⟨-, hlow, -⟩ := legal_bounds hlegal
  have hp : p % c.sampleRate < c.sampleRate := Nat.mod_lt _ (by omega)
  rw [← sine_mod, sine_toNat heven hp]
  exact roundHalfUp_sampleFraction_le heven hp

/-! ### The default rate -/

/-- `x` is at least `δ` away from every half-integer. -/
def farFromHalves (δ x : ℝ) : Prop := ∀ n : ℤ, δ ≤ |x - (n + 1 / 2)|

/-- Two values round alike if they are nearer to each other than one of them is to a half-integer. -/
theorem farFromHalves.floor_eq {δ x y : ℝ} (h : farFromHalves δ x) (hxy : |x - y| < δ) :
    ⌊y + 1 / 2⌋ = ⌊x + 1 / 2⌋ := by
  rw [Int.floor_eq_iff]
  have hlo := Int.floor_le (x + 1 / 2)
  have hhi := Int.lt_floor_add_one (x + 1 / 2)
  have hbelow := h (⌊x + 1 / 2⌋ - 1)
  have habove := h ⌊x + 1 / 2⌋
  push_cast at hbelow
  rw [abs_of_nonneg (by linarith)] at hbelow
  rw [abs_of_neg (by linarith)] at habove
  rw [abs_lt] at hxy
  constructor <;> linarith

theorem farFromHalves.of_close {δ ε x y : ℝ} (h : farFromHalves δ x) (hxy : |x - y| ≤ ε) :
    farFromHalves (δ - ε) y := fun n => by
  linarith [h n, abs_sub_le x y (n + 1 / 2)]

theorem farFromHalves.intCast_add {δ x : ℝ} (h : farFromHalves δ x) (k : ℤ) :
    farFromHalves δ (k + x) := fun n => by
  have := h (n - k)
  push_cast at this
  rwa [show (k : ℝ) + x - (n + 1 / 2) = x - (n - k + 1 / 2) by ring]

theorem farFromHalves.neg {δ x : ℝ} (h : farFromHalves δ x) : farFromHalves δ (-x) := fun n => by
  have := h (-n - 1)
  push_cast at this
  rwa [← abs_neg, show -(-x - ((n : ℝ) + 1 / 2)) = x - (-n - 1 + 1 / 2) by ring]

/-- The place of a fraction inside its rounding interval is at least 1/10000 from both ends. -/
def insideRounding (num den : Nat) : Bool :=
  let q := (2 * num + den) % (2 * den)
  decide (2 * den ≤ 10000 * q ∧ 10000 * q + 2 * den ≤ 10000 * (2 * den))

theorem farFromHalves_of_insideRounding {num den : Nat} (hden : 0 < den) (h : insideRounding num den = true) :
    farFromHalves (1 / 10000) ((num : ℝ) / den) := by
  intro n
  have hden' : (0 : ℝ) < den := by exact_mod_cast hden
  simp only [insideRounding, decide_eq_true_eq] at h
  obtain ⟨hlo, hhi⟩ := h
  have hdiv := Nat.div_add_mod (2 * num + den) (2 * den)
  generalize (2 * num + den) % (2 * den) = q at *
  generalize (2 * num + den) / (2 * den) = t at *
  have hvalue : (num : ℝ) / den - (n + 1 / 2) = ((t : ℤ) - n - 1 : ℤ) + q / (2 * den) := by
    have : (2 * den * t + q : ℝ) = 2 * num + den := by exact_mod_cast hdiv
    push_cast
    field_simp
    linear_combination -this
  have hqlo : 1 / 10000 ≤ (q : ℝ) / (2 * den) := by
    rw [div_le_div_iff₀ (by norm_num) (by positivity)]
    exact_mod_cast (by omega : 1 * (2 * den) ≤ q * 10000)
  have hqhi : (q : ℝ) / (2 * den) ≤ 9999 / 10000 := by
    rw [div_le_div_iff₀ (by positivity) (by norm_num)]
    exact_mod_cast (by omega : q * 10000 ≤ 9999 * (2 * den))
  rw [hvalue]
  rcases lt_or_ge ((t : ℤ) - n - 1) 0 with hneg | hnonneg
  · have : (((t : ℤ) - n - 1 : ℤ) : ℝ) ≤ -1 := by exact_mod_cast (by omega : (t : ℤ) - n - 1 ≤ -1)
    rw [abs_of_nonpos (by linarith)]
    linarith
  · have : (0 : ℝ) ≤ ((t : ℤ) - n - 1 : ℤ) := by exact_mod_cast hnonneg
    exact le_abs.2 (.inl (by linarith))

/-- R171, "the nearest non-tie being 0.00019 from a half-integer": the first quadrant at the default rate, computed. -/
theorem insideRounding_quarterSine (i : Nat) (hi : i < 31) (j : Nat) (hj : j < 100) :
    12 * (100 * i + j) = 12000 ∨
      insideRounding (127 * (quarterSine 12000 (100 * i + j)).1) (quarterSine 12000 (100 * i + j)).2 = true := by
  revert i j
  decide +kernel

/-- Away from the halfway cases every sample of the default rate is far from them. -/
theorem farFromHalves_exactSample {p : Nat} (hp : p < 12000) (hne : 12 * quarterPhase 12000 p ≠ 12000) :
    farFromHalves (1 / 10000 - 1 / 1000000000) (exactSample 12000 p) := by
  obtain ⟨hquarter, -⟩ := quarterPhase_cases (by decide) hp
  have hsin := sin_phase (by decide) hp
  have hclose := abs_quarterSine_sub_sin_le (by decide) hquarter
  have hpos := quarterSine_den_pos (by decide) hquarter
  generalize quarterPhase 12000 p = k at *
  have hinside := insideRounding_quarterSine (k / 100) (by omega) (k % 100) (by omega)
  rw [Nat.div_add_mod] at hinside
  have hfar := (farFromHalves_of_insideRounding hpos (hinside.resolve_left hne)).of_close
    (y := 127 * Real.sin (2 * Real.pi * k / (12000 : Nat))) (ε := 1 / 1000000000) (by
      rw [Nat.cast_mul, mul_div_assoc, Nat.cast_ofNat, ← mul_sub, abs_mul, Nat.abs_ofNat]
      linarith)
  have hshift (x : ℝ) : 127 * (x + 1) = (127 : ℤ) + 127 * x := by
    push_cast
    ring
  rw [exactSample, hsin]
  split
  · rw [hshift]
    exact hfar.intCast_add 127
  · rw [hshift, mul_neg]
    exact hfar.neg.intCast_add 127

/-- Settles O33: a halfway case is exact, and every other sample is farther from a half-integer than the fraction is
from it. -/
theorem sineIsExactAtTheDefaultRate : Obligations.SineIsExactAtTheDefaultRate := by
  intro p hp
  have hround := roundHalfUp_eq_floor (sampleFraction 12000 p).1 (sampleFraction_den_pos (by decide) hp)
  have hfloor : ⌊sampleValue 12000 p + 1 / 2⌋ = ⌊exactSample 12000 p + 1 / 2⌋ := by
    by_cases h : 12 * quarterPhase 12000 p = 12000
    · rw [sampleValue_exact (by decide) hp h]
    · refine (farFromHalves_exactSample hp h).floor_eq ?_
      rw [abs_sub_comm]
      exact (abs_sampleValue_sub_exactSample_le (by decide) hp).trans_lt (by norm_num)
  rw [sine_toNat (by decide) hp, hround]
  exact_mod_cast hfloor

/-- Settles O31: 60 samples, computed. -/
theorem sineTableAtTheDefaultRate : Obligations.SineTableAtTheDefaultRate := by
  unfold Obligations.SineTableAtTheDefaultRate
  decide +kernel

end Sys2Proof.Machine
end

section
/-! PROOFS. Reserved command words and `SRESET` (43_control.md R211, R212): a write to `CMD` at the idle port, the
completion step of a word of no command, and the registers after `SRESET`. -/

namespace Sys2Proof.Machine

/-! ### Reserved words (43_control.md R212) -/

/-- A word other than the five of the table decodes to no command. -/
theorem decode_of_reserved {w : Word} (hcrc : w ≠ 0x1) (hbuild : w ≠ 0x2) (hmodulate : w ≠ 0x3)
    (hbuildmod : w ≠ 0x4) (hsreset : w ≠ 0xF) : ∃ e, decode w = .error e := by
  cases hdec : decode w with
  | error e => exact ⟨e, rfl⟩
  | ok i =>
    have hw : w = encode i := (decode_eq_ok_iff w i).1 hdec
    cases i
    case crc => exact absurd hw hcrc
    case build => exact absurd hw hbuild
    case modulate => exact absurd hw hmodulate
    case buildmod => exact absurd hw hbuildmod
    case sreset => exact absurd hw hsreset

/-- With nothing in flight, a write to any offset of the word of `CMD` is the issue of its value
(60_exceptions.md R230). -/
theorem step_issue_idle {s : State} {addr : Nat} {v : Word} {rest : List Input} (hlegal : s.cfg.legal = true)
    (hidle : s.inFlight = none) (hin : s.inputs = .write addr v :: rest) (hbase : s.cfg.blockBase ≤ addr)
    (hword : (addr - s.cfg.blockBase) / 4 = 2) : step s = issue v { s with inputs := rest } := by
  have hdec : s.cfg.decodes addr = true := decodes_of_word hbase hword (by decide)
  have hplace : locate s.cfg (addr - s.cfg.blockBase) = .register .cmd := locate_register s.cfg _ .cmd hword
  rw [step_port hlegal (portNext_of_none hidle) hin,
    inputEvent_write_idle ({ s with inputs := rest } : State) addr v hdec hidle]
  simp only [hplace]

theorem issue_of_reserved {w : Word} {e : DecodeError} (h : decode w = .error e) (s : State) :
    issue w s = .next (accept w s) := by
  rw [issue, h]

theorem completionStep_of_reserved {w : Word} {e : DecodeError} (h : decode w = .error e) (s : State) :
    completionStep w s = .next (s.complete .badCmd) := by
  rw [completionStep, h]
  rfl

/-- Settles O6: the word decodes to no command, so its write is an issue and its completion step `BAD_CMD` alone. -/
theorem reservedWordCompletesWithBadCmd : Obligations.ReservedWordCompletesWithBadCmd := by
  intro s w hlegal hcrc hbuild hmodulate hbuildmod hsreset
  obtain ⟨e, hdec⟩ := decode_of_reserved hcrc hbuild hmodulate hbuildmod hsreset
  constructor
  · intro rest hidle hin
    rw [step_issue_idle hlegal hidle hin (by omega) (by omega), issue_of_reserved hdec]
    rfl
  · intro hold hflight hdue
    rw [step_engine hlegal hflight hdue, completionStep_of_reserved hdec]
    rfl

/-! ### `SRESET` (43_control.md R211) -/

/-- Settles O38: the registers are those of reset, and no memory byte is touched. -/
theorem sresetResetsRegistersAndKeepsMemories : Obligations.SresetResetsRegistersAndKeepsMemories := by
  intro s
  have hexec : exec .sreset s = .next s.resetRegs := rfl
  exact ⟨s.resetRegs, hexec, State.readReg_of_reset rfl rfl, rfl, rfl, rfl, s.resetRegs_byte,
    exec_sameSurround hexec⟩

end Sys2Proof.Machine
end

section
/-! PROOFS. `BUILDMOD` (43_control.md R210): where BUILD's checks pass it is MODULATE of what BUILD left, and what
MODULATE does is known; where they fail it ends with BUILD's code. -/

namespace Sys2Proof.Machine

/-! ### BUILD, then MODULATE -/

theorem exec_buildmod_of_fits {s : State} (hfits : s.buildFits) : exec .buildmod s = exec .modulate s.built := by
  simp only [exec, execBuildmod, buildmodBody, buildBody_of_fits hfits, execModulate]

/-- BUILD's checks fail: BUILD and BUILDMOD end with one code, which is not 0, and differ in `SAMPLE_COUNT` alone. -/
theorem exec_buildmod_of_not_fits {s : State} (hfits : ¬ s.buildFits) :
    ∃ e, e ≠ .noError ∧ exec .build s = .next ((s.setFrameLen 0).complete e) ∧
      exec .buildmod s = .next ((s.setFrameLen 0).clearSampleCount.complete e) := by
  rcases buildBody_cases s with ⟨-, e, he, hbody⟩ | ⟨h, -⟩
  · refine ⟨e, by rcases he with rfl | rfl <;> decide, by rw [exec, execBuild, finish, hbody], ?_⟩
    rcases he with rfl | rfl <;> simp only [exec, execBuildmod, buildmodBody, hbody, finish]
  · exact absurd h hfits

@[simp] theorem State.complete_frameCount (s : State) (e : ErrCode) : (s.complete e).frameCount = s.frameCount := rfl
@[simp] theorem State.complete_sampleLimit (s : State) (e : ErrCode) : (s.complete e).sampleLimit = s.sampleLimit := rfl
@[simp] theorem State.complete_stuffStart (s : State) (e : ErrCode) : (s.complete e).stuffStart = s.stuffStart := rfl
@[simp] theorem State.complete_stuffEnd (s : State) (e : ErrCode) : (s.complete e).stuffEnd = s.stuffEnd := rfl
@[simp] theorem State.complete_modEnv (s : State) (e : ErrCode) : (s.complete e).modEnv = s.modEnv := rfl
@[simp] theorem State.complete_modStart (s : State) (e : ErrCode) : (s.complete e).modStart = s.modStart := rfl
@[simp] theorem State.complete_readBytes (s : State) (e : ErrCode) (m : BlockMem) (i n : Nat) :
    (s.complete e).readBytes m i n = s.readBytes m i n :=
  State.readBytes_congr m (s.complete_byte e m) i n

/-- MODULATE does not see how the command before it was completed. -/
theorem modulateBody_complete (s : State) (e : ErrCode) :
    modulateBody (s.complete e) = ((modulateBody s).1.complete e, (modulateBody s).2) := by
  simp only [modulateBody, State.complete_frameCount, State.complete_sampleLimit, State.complete_cfg,
    State.complete_stuffStart, State.complete_stuffEnd, State.complete_modEnv, State.complete_modStart,
    State.complete_readBytes]
  split
  · rfl
  · split
    · rfl
    · split <;> rfl

theorem exec_modulate_complete (s : State) (e : ErrCode) : exec .modulate (s.complete e) = exec .modulate s := by
  simp only [exec, execModulate, modulateBody_complete]
  rfl

/-- Settles O35, by whether BUILD's checks pass. -/
theorem buildmodIsBuildThenModulate : Obligations.BuildmodIsBuildThenModulate := by
  intro s
  by_cases hfits : s.buildFits
  · obtain ⟨t, ht⟩ := exec_next .modulate s.built
    exact ⟨_, t, exec_build_of_fits hfits, (exec_buildmod_of_fits hfits).trans ht,
      fun _ => (exec_modulate_complete s.built .noError).trans ht, fun h => absurd rfl h⟩
  · obtain ⟨e, he, hbuild, hbuildmod⟩ := exec_buildmod_of_not_fits hfits
    exact ⟨_, _, hbuild, hbuildmod, fun h => absurd h he, fun _ => rfl⟩

/-! ### The frame of BUILDMOD (20_memory.md R72) -/

/-- From `SPB` × ⌊MAX/`SPB`⌋ on MODULATE keeps `SAMPLE_MEM`, however it ends (42_afsk.md R173, R180). -/
theorem exec_modulate_byte_sample_of_le {s t : State} (hlegal : s.cfg.legal = true)
    (hexec : exec .modulate s = .next t) {i : Nat} (hi : s.cfg.spb * (s.sampleLimit / s.cfg.spb) ≤ i) :
    t.byte .sample i = s.byte .sample i := by
  rcases exec_modulate_cases hlegal hexec with rfl | ⟨hfit, -, rfl⟩ | ⟨-, rfl⟩
  · rw [State.complete_byte, State.clearSampleCount_byte]
  · rw [State.complete_byte, s.leaveCells_byte_sample_of_le _ _ _ ((Nat.mul_le_mul_left _ hfit).trans hi)]
  · rw [State.complete_byte, s.leaveCells_byte_sample_of_le _ _ _
      ((Nat.mul_le_mul_left _ (List.length_take_le _ _)).trans hi)]

/-- Settles O37: a BUILD that fails changes two registers; else MODULATE's frame from what BUILD left. -/
theorem buildmodChangesOnlyFrameAndSamples : Obligations.BuildmodChangesOnlyFrameAndSamples := by
  intro s t hlegal hexec
  have hsurround := exec_sameSurround hexec
  by_cases hfits : s.buildFits
  · rw [exec_buildmod_of_fits hfits] at hexec
    obtain ⟨hregs, hkept, -⟩ := modulateChangesOnlyTheSamples s.built t hlegal hexec
    refine ⟨by rw [hregs]; rfl, fun i => ⟨?_, ?_⟩, fun i hi => ?_, fun i hi => ?_, hsurround⟩
    · rw [hkept .path i (by decide), s.built_byte_ne .path (by decide)]
    · rw [hkept .payload i (by decide), s.built_byte_ne .payload (by decide)]
    · rw [hkept .frame i (by decide), s.built_byte_frame, dif_neg (Nat.not_lt.2 (hi hfits))]
    · rw [exec_modulate_byte_sample_of_le (s := s.built) hlegal hexec (hi hfits), s.built_byte_ne .sample (by decide)]
  · obtain ⟨e, -, -, hbuildmod⟩ := exec_buildmod_of_not_fits hfits
    obtain rfl := Host.Outcome.next.inj (hbuildmod.symm.trans hexec)
    have hkept (m : BlockMem) (i : Nat) :
        ((s.setFrameLen 0).clearSampleCount.complete e).byte m i = s.byte m i := by simp
    exact ⟨rfl, fun i => ⟨hkept .path i, hkept .payload i⟩, fun i _ => hkept .frame i, fun i _ => hkept .sample i,
      hsurround⟩

/-! ### BUILDMOD with room for its samples -/

/-- A stuffed bit stands for five ones, of which `n` may have been counted before. -/
theorem five_mul_stuffedCells_le (n : Nat) (xs : List (Bool × Bool)) :
    5 * stuffedCells n xs ≤ xs.length + n := by
  fun_induction stuffedCells n xs with
  | case1 => exact Nat.zero_le _
  | case2 n b rest ih | case3 n rest ih | case4 n rest h5 ih | case5 n rest h5 ih =>
    rw [List.length_cons]
    omega

theorem State.stuffedCells_inputBits_le (s : State) : stuffedCells 0 s.inputBits ≤ 8 * s.frameCount / 5 := by
  have hfive := five_mul_stuffedCells_le 0 s.inputBits
  rw [State.inputBits, taggedBits_length, List.length_map, List.length_range] at hfive
  rw [State.inputBits]
  omega

theorem State.buildFits.frameTotal_le {s : State} (hfits : s.buildFits) : s.frameTotal ≤ s.cfg.frameCap := by
  obtain ⟨-, -, -, htotal⟩ := hfits
  exact htotal

/-- In a legal build T fits the 16 bits of `FRAME_LEN`. -/
theorem State.built_frameCount {s : State} (hlegal : s.cfg.legal = true) (hfits : s.buildFits) :
    s.built.frameCount = s.frameTotal := by
  have htotal := hfits.frameTotal_le
  obtain ⟨-, -, -, -, -, -, hcap, -⟩ := legal_bounds hlegal
  rw [State.frameCount, State.built_regs, BitVec.toNat_ofNat]
  exact Nat.mod_eq_of_lt (by omega)

/-- With room for all its cells MODULATE sends them all. -/
theorem exec_modulate_of_room {s : State} (hlegal : s.cfg.legal = true) (hframe : s.frameCount ≤ s.cfg.frameCap)
    (hsample : s.sampleLimit ≤ s.cfg.sampleCap) (hroom : s.cfg.spb * s.lineCells.length ≤ s.sampleLimit) :
    exec .modulate s = .next ((s.leaveCells s.lineCells (s.lineCells.getLastD s.startLevel)
      (s.cfg.spb * s.lineCells.length)).complete .noError) := by
  have hfit : s.lineCells.length ≤ s.sampleLimit / s.cfg.spb :=
    (Nat.le_div_iff_mul_le (spb_pos hlegal)).2 (by rwa [Nat.mul_comm])
  rcases modulateBody_sends hlegal hframe hsample with ⟨-, hbody⟩ | ⟨hfull, -⟩
  · rw [exec, execModulate, finish, hbody]
  · exact absurd hfit (Nat.not_le.2 hfull)

/-- Settles O36: MODULATE has 8T bits to send and at most one stuffed bit for every five of them. -/
theorem buildmodSucceedsWhenItFits : Obligations.BuildmodSucceedsWhenItFits := by
  intro s hlegal hfits hsample hroom
  have hcount := State.built_frameCount hlegal hfits
  have hstuffed := s.built.stuffedCells_inputBits_le
  have hcells := s.built.lineCells_length
  rw [hcount] at hstuffed hcells
  have hsend : s.cfg.spb * s.built.lineCells.length ≤ s.sampleLimit :=
    (Nat.mul_le_mul_left _ (by omega)).trans hroom
  have hexec := exec_modulate_of_room (s := s.built) hlegal (hcount.trans_le hfits.frameTotal_le) hsample hsend
  refine ⟨_, _, stuffedCells 0 s.built.inputBits, exec_build_of_fits hfits,
    (exec_buildmod_of_fits hfits).trans hexec, rfl, rfl, rfl, rfl, rfl, rfl, fun i => ?_, hstuffed, ?_⟩
  · simp only [State.complete_byte]
    exact s.built.leaveCells_byte_ne _ _ _ (by decide) i
  · rw [← hcells]
    exact (exec_modulate_noError (s := s.built) hlegal hexec rfl).1

end Sys2Proof.Machine
end

section
/-! PROOFS. The life of a command (60_exceptions.md R230, R231, R236, R244): what a write to `CMD` does, what the block
does while nothing is asked of it, and that no event of a legal build stops it. -/

namespace Sys2Proof.Machine

/-! ### The engine -/

/-- Settles O4: a due engine makes the completion step, which is the command its word decodes to. -/
theorem stepRunsTheDecodedCommand : Obligations.StepRunsTheDecodedCommand := by
  intro s c i hlegal hflight hdec hdue
  rw [step_engine hlegal hflight hdue, completionStep, hdec]

/-- Settles O14: with nothing in flight the port is next, and its list is empty. -/
theorem idleBlockKeepsItsState : Obligations.IdleBlockKeepsItsState := by
  intro s hlegal hidle hin
  have hport : portEvent s = .next s := by rw [portEvent, hin]
  rw [step, if_pos hlegal, event, hidle]
  exact hport

/-! ### A write to `CMD` (60_exceptions.md R230) -/

theorem issue_sreset (s : State) : issue (encode .sreset) s = .next s.resetRegs := rfl

/-- Only SRESET is performed by the write itself: every other word, reserved ones too, becomes the command in flight. -/
theorem issue_of_ne_sreset {v : Word} (hv : v ≠ encode .sreset) (s : State) : issue v s = .next (accept v s) := by
  cases hdec : decode v with
  | error e => exact issue_of_reserved hdec s
  | ok i =>
    have hword : v = encode i := (decode_eq_ok_iff v i).1 hdec
    rw [issue, hdec]
    cases i
    case sreset => exact absurd hword hv
    all_goals rfl

/-- With nothing in flight SRESET has no command to take away. -/
theorem State.resetRegs_of_idle {s : State} (hidle : s.inFlight = none) :
    s.resetRegs = { s with regs := Regs.reset } := by
  rw [State.resetRegs, ← hidle]

/-- Settles O5: at the idle port the write is an issue, at the busy port it is dropped like any write. -/
theorem commandWriteIssues : Obligations.CommandWriteIssues := by
  intro s addr v rest hlegal hin hbase hword
  refine ⟨fun hidle hv => ?_, fun hidle hv => ?_, fun c hflight hhold => ?_⟩
  · subst hv
    have hissue : step s = .next ({ s with inputs := rest } : State).resetRegs :=
      (step_issue_idle hlegal hidle hin hbase hword).trans (issue_sreset _)
    rw [hissue, State.resetRegs_of_idle (s := { s with inputs := rest }) hidle]
  · rw [step_issue_idle hlegal hidle hin hbase hword, issue_of_ne_sreset hv]
    rfl
  · exact busyWritesAreDropped s c addr v rest hlegal hflight hhold hin (decodes_of_word hbase hword (by decide))

/-! ### No event stops the block (60_exceptions.md R236) -/

theorem issue_next (v : Word) (s : State) : ∃ t, issue v s = .next t := by
  by_cases hv : v = encode .sreset
  · exact ⟨s.resetRegs, by rw [hv, issue_sreset]⟩
  · exact ⟨accept v s, issue_of_ne_sreset hv s⟩

/-- The completion step of every word answers a next state. -/
theorem completionStep_next (w : Word) (s : State) : ∃ t, completionStep w s = .next t := by
  cases hdec : decode w with
  | ok i =>
    rw [completionStep, hdec]
    exact exec_next i s
  | error e => exact ⟨s.complete .badCmd, completionStep_of_reserved hdec s⟩

/-- A host write answers a next state wherever it lands: an issue at `CMD`, and a state of its own anywhere else. -/
theorem hostWrite_next (off : Nat) (v : Word) (s : State) : ∃ t, hostWrite off v s = .next t := by
  unfold hostWrite
  split
  · exact ⟨_, rfl⟩
  · split
    · exact issue_next v s
    all_goals exact ⟨_, rfl⟩

/-- An event from outside is refused only for its address, so a decoded one answers a next state. -/
theorem inputEvent_next {x : Input} {s : State} (hx : x.wellFormed s.cfg = true) : ∃ t, inputEvent x s = .next t := by
  cases x with
  | write addr v =>
    have hdec : s.cfg.decodes addr = true := hx
    rw [inputEvent, if_pos hdec]
    exact hostWrite_next _ v _
  | read addr => exact ⟨_, if_pos hx⟩
  | wait =>
    rw [inputEvent]
    split <;> exact ⟨_, rfl⟩
  | rst => exact ⟨s.hardReset, rfl⟩

/-- Settles O12: by what is still to come, and by which agent moves. -/
theorem legalBlockNeverStops : Obligations.LegalBlockNeverStops := by
  intro s hlegal hdecoded
  rcases s.inputs_cases with hin | ⟨x, rest, hin⟩
  · rcases s.inFlight_cases with hidle | ⟨c, hflight⟩
    · exact ⟨s, idleBlockKeepsItsState s hlegal hidle hin⟩
    · rw [step_engine hlegal hflight (.inr hin)]
      exact completionStep_next c.word s
  · by_cases hport : s.portNext
    · rw [step_port hlegal hport hin]
      exact inputEvent_next (s := { s with inputs := rest }) (hdecoded x (by simp [hin]))
    · obtain ⟨c, hflight, hhold⟩ : ∃ c, s.inFlight = some c ∧ c.hold = 0 := by
        simpa [State.portNext] using hport
      rw [step_engine hlegal hflight (.inl hhold)]
      exact completionStep_next c.word s

end Sys2Proof.Machine
end

section
/-! PROOFS. The interrupt output (60_exceptions.md R235): no command but SRESET writes `CTRL.IRQ_EN`, and every command
but SRESET ends with `DONE` = 1. -/

namespace Sys2Proof.Machine

/-! ### `IRQ_EN` through the bodies of the commands -/

theorem crcBody_irqEn (s : State) : (crcBody s).1.regs.irqEn = s.regs.irqEn := by
  rcases crcBody_cases s with ⟨-, hbody⟩ | ⟨-, hbody⟩ <;> rw [hbody]

theorem buildBody_irqEn (s : State) : (buildBody s).1.regs.irqEn = s.regs.irqEn := by
  rcases buildBody_cases s with ⟨-, e, -, hbody⟩ | ⟨-, hbody⟩ <;> rw [hbody]
  · rw [State.setFrameLen_regs]
  · rw [State.built_regs]

theorem modulateBody_irqEn (s : State) : (modulateBody s).1.regs.irqEn = s.regs.irqEn := by
  rcases modulateBody_cases s with ⟨-, hbody⟩ | ⟨-, -, hbody⟩ <;> rw [hbody]
  · rw [State.clearSampleCount_regs]
  · split <;> rw [State.modLeave_regs]

/-- BUILDMOD ends with MODULATE or with `SAMPLE_COUNT` cleared, on what BUILD left. -/
theorem buildmodBody_irqEn (s : State) : (buildmodBody s).1.regs.irqEn = s.regs.irqEn := by
  rw [← buildBody_irqEn s]
  unfold buildmodBody
  split
  next t hbody => rw [hbody, modulateBody_irqEn]
  next t c _ hbody => rw [hbody, State.clearSampleCount_regs]

/-- No command but SRESET writes `IRQ_EN`. -/
theorem exec_irqEn {i : Instr} {s t : State} (hi : i ≠ .sreset) (h : exec i s = .next t) :
    t.regs.irqEn = s.regs.irqEn := by
  cases i <;> cases h
  case crc => exact crcBody_irqEn s
  case build => exact buildBody_irqEn s
  case modulate => exact modulateBody_irqEn s
  case buildmod => exact buildmodBody_irqEn s
  case sreset => exact absurd rfl hi

/-! ### The output -/

/-- `IRQ_EN` is bit 0 of `CTRL` as read (10_state.md R24). -/
theorem State.ctrlWord_irqEn (s : State) : s.ctrlWord.getLsbD 0 = s.regs.irqEn := by
  rw [State.ctrlWord, BitVec.getLsbD_or, bitAt_getLsbD 0 _ 0 (by decide), bitAt_getLsbD 1 _ 0 (by decide)]
  simp

/-- `DONE` is bit 1 of `STATUS` as read (10_state.md R26). -/
theorem State.statusWord_done (s : State) : s.statusWord.getLsbD 1 = s.regs.done := by
  obtain ⟨-, hdone, -⟩ := statusReadsItsFields s
  exact hdone

/-- Settles O47: the two bits as read, what a completion leaves of them, and the registers after SRESET. -/
theorem interruptFollowsDone : Obligations.InterruptFollowsDone := by
  refine ⟨fun s => ?_, fun i s t hi hexec => ?_, fun s t hexec => ?_⟩
  · rw [State.irq, s.ctrlWord_irqEn, s.statusWord_done]
  · rw [State.irq, exec_irqEn hi hexec, exec_done hi hexec, Bool.and_true]
  · cases hexec
    rfl

end Sys2Proof.Machine
end

section
/-! PROOFS. Reset and hazards, the completion of a command (70_reset_and_hazards.md R269): every transfer while a
command is in flight counts towards its hold, so that any sequence of transfers reaches the completion step. -/

namespace Sys2Proof.Machine

/-- While a command waits for its hold, any decoded event but `rst` takes one from the hold and brings no new event:
`WAIT` puts itself back at most. -/
theorem step_transfer_busy {s : State} {c : InFlight} {x : Input} {rest : List Input} (hlegal : s.cfg.legal = true)
    (hflight : s.inFlight = some c) (hhold : c.hold ≠ 0) (hin : s.inputs = x :: rest)
    (hx : x.wellFormed s.cfg = true) (hrst : x ≠ .rst) :
    ∃ u, step s = .next u ∧ u.cfg = s.cfg ∧ u.inFlight = some { word := c.word, hold := c.hold - 1 } ∧
      ∀ y ∈ u.inputs, y ∈ s.inputs := by
  have hrest : ∀ y ∈ rest, y ∈ s.inputs := fun y hy => by rw [hin]; exact List.mem_cons_of_mem x hy
  cases x with
  | write addr v =>
    exact ⟨_, busyWritesAreDropped s c addr v rest hlegal hflight hhold hin hx, rfl, rfl, hrest⟩
  | read addr =>
    refine ⟨_, step_read_busy hlegal hflight hhold hin hx, State.hostRead_cfg _ _, State.hostRead_inFlight _ _, ?_⟩
    rw [State.hostRead_inputs]
    exact hrest
  | wait =>
    refine ⟨_, step_wait_busy hlegal hflight hhold hin, rfl, rfl, fun y hy => ?_⟩
    rw [hin]
    exact hy
  | rst => exact absurd rfl hrst

/-- The step of a due engine completes the command in flight. -/
theorem step_due_completes {s : State} {c : InFlight} (hlegal : s.cfg.legal = true) (hflight : s.inFlight = some c)
    (hword : c.word ≠ encode .sreset) (hdue : c.hold = 0 ∨ s.inputs = []) :
    ∃ t, step s = .next t ∧ t.inFlight = none ∧ t.regs.done = true := by
  obtain ⟨t, hdone, hidle, hdoneBit, -⟩ := completionStep_completes hword s
  exact ⟨t, (step_engine hlegal hflight hdue).trans hdone, hidle, hdoneBit⟩

/-- Settles O7, by induction on the hold: the engine is due and makes the completion step, or the next event takes one
from the hold. -/
theorem inFlightCommandCompletes : Obligations.InFlightCommandCompletes := by
  intro s c hlegal hflight hword hinputs
  obtain ⟨w, hold⟩ := c
  induction hold generalizing s with
  | zero =>
    obtain ⟨t, hstep, hend⟩ := step_due_completes hlegal hflight hword (.inl rfl)
    exact ⟨1, t, le_rfl, run_succ 0 hstep, hend⟩
  | succ k ih =>
    rcases s.inputs_cases with hin | ⟨x, rest, hin⟩
    · obtain ⟨t, hstep, hend⟩ := step_due_completes hlegal hflight hword (.inr hin)
      exact ⟨1, t, Nat.le_add_left 1 (k + 1), run_succ 0 hstep, hend⟩
    · obtain ⟨hx, hrst⟩ := hinputs x (hin ▸ List.mem_cons_self)
      obtain ⟨u, hstep, hcfg, hcounted, hsub⟩ := step_transfer_busy hlegal hflight (Nat.succ_ne_zero k) hin hx hrst
      have hinputs' : ∀ y ∈ u.inputs, y.wellFormed u.cfg = true ∧ y ≠ .rst := fun y hy => by
        rw [hcfg]
        exact hinputs y (hsub y hy)
      obtain ⟨n, t, hn, hrun, hend⟩ := ih u (hcfg ▸ hlegal) hinputs' hcounted hword
      exact ⟨n + 1, t, Nat.succ_le_succ hn, (run_succ n hstep).trans hrun, hend⟩

end Sys2Proof.Machine
end

section
/-! PROOFS. No command reads the host side (70_reset_and_hazards.md R269; 20_memory.md R72, R75): the body of each
command commutes with setting what is still to come, what was read and what is in flight to anything. -/

namespace Sys2Proof.Machine

/-- The model's own fields of the host port (assumptions 4 to 7), with the command in flight. -/
structure HostSide where
  inputs   : List Input
  reads    : List Word
  delays   : List Nat
  draws    : Nat
  inFlight : Option InFlight

/-- The same block with another host side. -/
def State.withHost (s : State) (h : HostSide) : State :=
  { s with inputs := h.inputs, reads := h.reads, delays := h.delays, draws := h.draws, inFlight := h.inFlight }

section
variable (s : State) (h : HostSide)

/-! ### What does not see the host side -/

@[simp] theorem State.withHost_cfg : (s.withHost h).cfg = s.cfg := rfl
@[simp] theorem State.withHost_crcStart : (s.withHost h).crcStart = s.crcStart := rfl
@[simp] theorem State.withHost_crcCount : (s.withHost h).crcCount = s.crcCount := rfl
@[simp] theorem State.withHost_pathBytes : (s.withHost h).pathBytes = s.pathBytes := rfl
@[simp] theorem State.withHost_payloadBytes : (s.withHost h).payloadBytes = s.payloadBytes := rfl
@[simp] theorem State.withHost_frameTotal : (s.withHost h).frameTotal = s.frameTotal := rfl
@[simp] theorem State.withHost_frameCount : (s.withHost h).frameCount = s.frameCount := rfl
@[simp] theorem State.withHost_sampleLimit : (s.withHost h).sampleLimit = s.sampleLimit := rfl
@[simp] theorem State.withHost_stuffStart : (s.withHost h).stuffStart = s.stuffStart := rfl
@[simp] theorem State.withHost_stuffEnd : (s.withHost h).stuffEnd = s.stuffEnd := rfl
@[simp] theorem State.withHost_modEnv : (s.withHost h).modEnv = s.modEnv := rfl
@[simp] theorem State.withHost_modStart : (s.withHost h).modStart = s.modStart := rfl

@[simp] theorem State.withHost_byte (m : BlockMem) (i : Nat) : (s.withHost h).byte m i = s.byte m i :=
  State.byte_congr m (by cases m <;> rfl) rfl i

@[simp] theorem State.withHost_readBytes (m : BlockMem) (i n : Nat) :
    (s.withHost h).readBytes m i n = s.readBytes m i n :=
  State.readBytes_congr m (s.withHost_byte h m) i n

/-- The frame is made of registers and of memory bytes. -/
@[simp] theorem State.withHost_frameBytes : (s.withHost h).frameBytes = s.frameBytes := by
  have haddress : (s.withHost h).addressPlain = s.addressPlain :=
    congrArg (padCall s.dstCall ++ [s.dstSsidByte] ++ padCall s.srcCall ++ [s.srcSsidByte] ++ ·)
      (s.withHost_readBytes h .path 0 s.pathBytes)
  have hbody : (s.withHost h).frameBody = s.frameBody := by
    simp only [State.frameBody, State.addressRegion, haddress, State.withHost_readBytes, State.withHost_payloadBytes]
  unfold State.frameBytes
  rw [hbody]
  rfl

/-! ### The bodies of the commands -/

/-- CRC tests and reads registers and memory bytes alone. -/
theorem crcBody_withHost : crcBody (s.withHost h) = ((crcBody s).1.withHost h, (crcBody s).2) := by
  simp only [crcBody, State.withHost_crcStart, State.withHost_crcCount, State.withHost_cfg, State.withHost_readBytes]
  split <;> rfl

/-- BUILD tests registers alone, and stores a frame that does not see the host side. -/
theorem buildBody_withHost : buildBody (s.withHost h) = ((buildBody s).1.withHost h, (buildBody s).2) := by
  simp only [buildBody, State.withHost_pathBytes, State.withHost_payloadBytes, State.withHost_frameTotal,
    State.withHost_cfg, State.withHost_frameBytes]
  split
  · rfl
  · split
    · rfl
    · split <;> rfl

/-- MODULATE tests and reads registers and memory bytes alone, and its run starts from the same modulator. -/
theorem modulateBody_withHost : modulateBody (s.withHost h) = ((modulateBody s).1.withHost h, (modulateBody s).2) := by
  simp only [modulateBody, State.withHost_frameCount, State.withHost_sampleLimit, State.withHost_cfg,
    State.withHost_modEnv, State.withHost_stuffStart, State.withHost_stuffEnd, State.withHost_readBytes,
    State.withHost_modStart]
  split
  · rfl
  · split
    · rfl
    · split <;> rfl

/-- BUILDMOD is BUILD, then MODULATE or BUILD's error. -/
theorem buildmodBody_withHost : buildmodBody (s.withHost h) = ((buildmodBody s).1.withHost h, (buildmodBody s).2) := by
  unfold buildmodBody
  rw [buildBody_withHost]
  obtain ⟨t, e⟩ := buildBody s
  cases e
  case noError => exact modulateBody_withHost t h
  all_goals rfl

/-- The completion of a command takes it out of flight and leaves the rest of the host side (60_exceptions.md R231). -/
theorem finish_withHost (r : State × ErrCode) :
    finish (r.1.withHost h, r.2) = (finish r).withHost { h with inFlight := (finish r).inFlight } := rfl

/-- Every command answers the same state from any host side, which it keeps but for the command in flight. -/
theorem exec_withHost {i : Instr} {t : State} (hexec : exec i s = .next t) :
    exec i (s.withHost h) = .next (t.withHost { h with inFlight := t.inFlight }) := by
  cases i <;> cases hexec
  case crc => rw [exec, execCrc, crcBody_withHost, finish_withHost]
  case build => rw [exec, execBuild, buildBody_withHost, finish_withHost]
  case modulate => rw [exec, execModulate, modulateBody_withHost, finish_withHost]
  case buildmod => rw [exec, execBuildmod, buildmodBody_withHost, finish_withHost]
  case sreset => rfl

end

/-- Settles O49: no body sees the host side, and every command ends with nothing in flight. -/
theorem commandsIgnoreTheHostSide : Obligations.CommandsIgnoreTheHostSide := by
  intro i s t ins rds dls n fl hexec
  exact ⟨exec_inFlight hexec, exec_withHost s ⟨ins, rds, dls, n, fl⟩ hexec⟩

end Sys2Proof.Machine
end

section
/-! PROOFS. The reset input and `SRESET` (70_reset_and_hazards.md R260 to R263), and the first commands after reset. -/

namespace Sys2Proof.Machine

/-! ### `rst` and `SRESET` -/

/-- When the port is next, `rst` resets the block, whether or not a command is in flight. -/
theorem step_rst {s : State} {rest : List Input} (hlegal : s.cfg.legal = true) (hport : s.portNext)
    (hin : s.inputs = .rst :: rest) : step s = .next ({ s with inputs := rest } : State).hardReset :=
  step_port hlegal hport hin

/-- Settles O39: the step is the hard reset, whose registers are those of reset and whose memories list no byte. -/
theorem rstAbandonsAndResets : Obligations.RstAbandonsAndResets := by
  intro s rest hlegal hport hin
  exact ⟨_, step_rst hlegal hport hin, State.readReg_of_reset rfl rfl, rfl, rfl, rfl, rfl, rfl, rfl, rfl,
    State.hardReset_byte _⟩

/-- Settles O41: both resets leave the registers of reset and nothing in flight, SRESET keeps the bytes, and the busy
port drops its write like any other. -/
theorem sresetAgainstRst : Obligations.SresetAgainstRst := by
  refine ⟨fun s u rest hlegal hport hin hstep => ?_, fun s c rest hlegal hflight hhold hin => ?_⟩
  · obtain rfl := Host.Outcome.next.inj ((step_rst hlegal hport hin).symm.trans hstep)
    exact ⟨s.resetRegs, rfl, rfl, rfl, State.readReg_congr rfl rfl, s.resetRegs_byte⟩
  · have hdec : s.cfg.decodes (s.cfg.blockBase + 8) = true :=
      decodes_of_word (k := 2) (Nat.le_add_right _ 8) (by omega) (by decide)
    exact busyWritesAreDropped s c _ 0xF rest hlegal hflight hhold hin hdec

/-! ### BUILD and MODULATE straight after reset (70_reset_and_hazards.md R263) -/

theorem reset_buildFits : State.reset.buildFits := ⟨by decide, by decide, by decide, by decide⟩

/-- Frame F5 of 95_test_vectors.md: no flags, empty callsigns, no path and no payload. -/
theorem reset_frameBytes : State.reset.frameBytes =
    [0x40, 0x40, 0x40, 0x40, 0x40, 0x40, 0xE0, 0x40, 0x40, 0x40, 0x40, 0x40, 0x40, 0x61, 0x03, 0xF0, 0xDC, 0x54] := by
  decide +kernel

/-- With `FRAME_LEN` 0 MODULATE sends no bit and leaves its initial modulator (42_afsk.md R179). -/
theorem exec_modulate_reset :
    exec .modulate State.reset = .next ((State.reset.modLeave State.reset.modStart 0).complete .noError) := rfl

/-- Settles O25: BUILD's checks pass on the reset state, whose frame is F5; MODULATE has nothing to send. -/
theorem buildAndModulateStraightAfterReset : Obligations.BuildAndModulateStraightAfterReset := by
  refine ⟨⟨_, exec_build_of_fits reset_buildFits, rfl, rfl, rfl, rfl, ?_⟩,
    ⟨_, exec_modulate_reset, rfl, rfl, rfl, rfl⟩⟩
  calc (List.range 18).map ((State.reset.built.complete .noError).byte .frame)
      = State.reset.built.readBytes .frame 0 18 := by
        rw [State.readBytes_eq_map, List.range_eq_range']
        exact List.map_congr_left fun i _ => State.reset.built.complete_byte .noError .frame i
    _ = (State.reset.frameBytes.drop 0).take 18 := State.reset.built_readBytes_frame (by decide)
    _ = _ := by rw [reset_frameBytes]; rfl

end Sys2Proof.Machine
end
